-- ==== Sys2Proof/Word.lean ====
section
/-! DEFINITION. The words whose widths are no parameter of the spec (spec/00_scope.md R7, R10): the byte of a memory cell or of an
opcode's field, the opcode, and the 12-bit address of an opcode. The widths of registers, `pc`, `I` and timers are parameters: Config.lean. -/

namespace Sys2Proof

/-- An 8-bit value: a memory cell (R31), the field `KK` of an opcode (R10). -/
abbrev Byte := BitVec 8

/-- A 16-bit value: an opcode (R90). -/
abbrev Word := BitVec 16

/-- The field `NNN` of an opcode, 12 bits (R10). -/
abbrev Addr12 := BitVec 12

end Sys2Proof
end

