-- ==== Sys2Proof/Config.lean ====
section
/-! DEFINITION. What an implementation fixes, and the free values, which nothing in Lean can evaluate. Every parameter of
spec/00_scope.md R6 is a field of `Params`, with the default of R6: the sizes, which the types of State rest on, through `Sizes`, and the
four open ones. The machine reads a size by its name below, and an open parameter through `Sys2Proof.Machine.params`
(Machine/Parameters.lean). -/

namespace Sys2Proof

/-! ## Sizes and addresses (R6) -/

/-- The parameters of R6 that are numbers, each with its default. -/
structure Sizes where
  /-- `REG_COUNT`: general registers V0..VF (R20). -/
  regCount : Nat := 16
  /-- `REG_WIDTH`: width of a general register (R20). -/
  regWidth : Nat := 8
  /-- `FLAG_REG`: number of the register that is also the flag (R21). -/
  flagReg : Nat := 0xF
  /-- `PC_WIDTH`: width of `pc` and of a return address (R23, R27). -/
  pcWidth : Nat := 16
  /-- `I_WIDTH`: width of `I` (R26). -/
  iWidth : Nat := 16
  /-- `MEM_SIZE`: bytes of memory (R31). -/
  memSize : Nat := 4096
  /-- `FONT_BASE`: first address of the glyph atlas (R64). -/
  fontBase : Nat := 0x000
  /-- `FONT_GLYPH_BYTES`: bytes of a glyph (R33). -/
  fontGlyphBytes : Nat := 5
  /-- `FONT_LEN`: bytes of the glyph atlas (R33). -/
  fontLen : Nat := 80
  /-- `LOAD_ADDR`: the load address and the reset `pc` (R38, R254). -/
  loadAddr : Nat := 0x200
  /-- `MAX_IMAGE`: bytes of the largest image (R254). -/
  maxImage : Nat := memSize - loadAddr
  /-- `STACK_DEPTH`: slots of the call stack (R27). -/
  stackDepth : Nat := 16
  /-- `DISP_W`: columns of the framebuffer (R30). -/
  dispW : Nat := 64
  /-- `DISP_H`: rows of the framebuffer (R30). -/
  dispH : Nat := 32
  /-- `SPRITE_W`: pixels of a sprite row (R141). -/
  spriteW : Nat := 8
  /-- `NUM_KEYS`: keys of the keypad (R29). -/
  numKeys : Nat := 16
  /-- `TIMER_WIDTH`: width of a timer (R28). -/
  timerWidth : Nat := 8
  /-- `INSN_BYTES`: bytes of an instruction (R90). -/
  insnBytes : Nat := 2
  deriving DecidableEq, Repr

/-- The sizes of this machine: the defaults of R6. A number that an audit finds wrong (D1) is changed here. DESIGN CHOICE, safe: log
entry 19. -/
@[simp] abbrev Config.sizes : Sizes := {}

/-! Each size by its own name. -/

@[simp] abbrev Config.regCount : Nat := Config.sizes.regCount
@[simp] abbrev Config.regWidth : Nat := Config.sizes.regWidth
@[simp] abbrev Config.pcWidth : Nat := Config.sizes.pcWidth
@[simp] abbrev Config.iWidth : Nat := Config.sizes.iWidth
@[simp] abbrev Config.memSize : Nat := Config.sizes.memSize
@[simp] abbrev Config.fontBase : Nat := Config.sizes.fontBase
@[simp] abbrev Config.fontGlyphBytes : Nat := Config.sizes.fontGlyphBytes
@[simp] abbrev Config.fontLen : Nat := Config.sizes.fontLen
@[simp] abbrev Config.loadAddr : Nat := Config.sizes.loadAddr
@[simp] abbrev Config.maxImage : Nat := Config.sizes.maxImage
@[simp] abbrev Config.stackDepth : Nat := Config.sizes.stackDepth
@[simp] abbrev Config.dispW : Nat := Config.sizes.dispW
@[simp] abbrev Config.dispH : Nat := Config.sizes.dispH
@[simp] abbrev Config.spriteW : Nat := Config.sizes.spriteW
@[simp] abbrev Config.numKeys : Nat := Config.sizes.numKeys
@[simp] abbrev Config.timerWidth : Nat := Config.sizes.timerWidth
@[simp] abbrev Config.insnBytes : Nat := Config.sizes.insnBytes

/-! ## The types these sizes give

A byte moves unchanged between a register, a timer and a memory cell (R151, R184, R185, R202, R204), so `REG_WIDTH` and `TIMER_WIDTH`
can only be the 8 bits of a cell. -/

/-- The index of a general register (R20). -/
abbrev RegIx := Fin Config.regCount

/-- The value of a general register (R20). -/
abbrev RegVal := BitVec Config.regWidth

/-- `FLAG_REG`: the register that is also the flag (R21). -/
def Config.flagReg : RegIx := Fin.ofNat Config.regCount Config.sizes.flagReg

/-- The value of `pc` or of a stack slot (R23, R27). -/
abbrev PcVal := BitVec Config.pcWidth

/-- The value of `I` (R26). -/
abbrev AddrVal := BitVec Config.iWidth

/-- The value of a timer (R28). -/
abbrev TimerVal := BitVec Config.timerWidth

/-- The number of a key (R29). -/
abbrev KeyIx := Fin Config.numKeys

/-! ## Open parameters (R6, spec/92_eei_decisions.md D5, D11, D12, D18) -/

/-- `VF_ORDER`: which write wins when a flag-writing ALU instruction's destination is VF (R150). -/
inductive VfOrder where
  | flagLast
  | resultLast
  deriving DecidableEq, Repr

/-- `KEY_PICK`: which key Fx0A reports when several are pressed (R203). -/
inductive KeyPick where
  | anyPressed
  | lowest
  deriving DecidableEq, Repr

/-- `I_OVERFLOW`: what Fx1E does with a sum above 0xFFFF (R181). -/
inductive IOverflow where
  | fault
  | wrap
  deriving DecidableEq, Repr

/-- `FONT`: the 80 bytes of the glyph atlas, in the table of R33, one glyph of five bytes a line.
UNVERIFIED: the spec gives these bytes from general knowledge (D18). Unsafe: log entry 5. -/
def Config.font : List Byte :=
  [0xF0, 0x90, 0x90, 0x90, 0xF0] ++
  [0x20, 0x60, 0x20, 0x20, 0x70] ++
  [0xF0, 0x10, 0xF0, 0x80, 0xF0] ++
  [0xF0, 0x10, 0xF0, 0x10, 0xF0] ++
  [0x90, 0x90, 0xF0, 0x10, 0x10] ++
  [0xF0, 0x80, 0xF0, 0x10, 0xF0] ++
  [0xF0, 0x80, 0xF0, 0x90, 0xF0] ++
  [0xF0, 0x10, 0x20, 0x40, 0x40] ++
  [0xF0, 0x90, 0xF0, 0x90, 0xF0] ++
  [0xF0, 0x90, 0xF0, 0x10, 0xF0] ++
  [0xF0, 0x90, 0xF0, 0x90, 0x90] ++
  [0xE0, 0x90, 0xE0, 0x90, 0xE0] ++
  [0xF0, 0x80, 0x80, 0x80, 0xF0] ++
  [0xE0, 0x90, 0x90, 0x90, 0xE0] ++
  [0xF0, 0x80, 0xF0, 0x80, 0xF0] ++
  [0xF0, 0x80, 0xF0, 0x80, 0x80]

/-- Every parameter of R6: the sizes and the four that are open, each with the default the spec uses. -/
structure Params extends Sizes where
  vfOrder   : VfOrder   := .flagLast
  keyPick   : KeyPick   := .anyPressed
  iOverflow : IOverflow := .fault
  font      : List Byte := Config.font
  deriving DecidableEq, Repr

/-! ## Free values

Each is applied to `State.draws`, a counter the step reads and advances. DESIGN CHOICE, safe: log entries 1 to 4. -/

/-- `draw_random()` of R163: the byte the n-th draw gives. -/
opaque Config.randomByte : Nat → Byte

/-- The choice among the pressed keys under `any_pressed` (R203): the n-th choice, read modulo the number of pressed keys. -/
opaque Config.keyChoice : Nat → Nat

/-- What `get_display` answers in a faulted state (R241): unspecified. -/
opaque Config.faultedDisplay : Nat → Vector (Vector Bool Config.dispW) Config.dispH

/-- What `should_play_sound` answers in a faulted state (R241): unspecified. -/
opaque Config.faultedSound : Nat → Bool

end Sys2Proof
end

