-- ==== Sys2Proof/Machine/Flags.lean ====
section
/-! DEFINITION. The results and flags of the five flag-writing ALU instructions, and of the decimal decomposition (spec/42_alu.md R157
to R162, spec/43_index_memory.md R183). Each is computed on exact numbers and narrowed at the end (R7). -/

namespace Sys2Proof.Machine

/-- A flag as VF holds it: 1 or 0. -/
def flagByte (b : Bool) : RegVal := if b then 1 else 0

/-- 8xy4: `s mod 256` (R157). -/
def addResult (a b : RegVal) : RegVal := BitVec.ofNat Config.regWidth (a.toNat + b.toNat)

/-- 8xy4: 1 iff the sum exceeds 255 (R157). -/
def addFlag (a b : RegVal) : RegVal := flagByte (decide (a.toNat + b.toNat > 255))

/-- 8xy5 on `(a, b)`, 8xy7 on `(b, a)`: `(a - b) mod 256` (R158, R160). -/
def subResult (a b : RegVal) : RegVal := BitVec.ofInt Config.regWidth ((a.toNat : Int) - (b.toNat : Int))

/-- 8xy5 on `(a, b)`, 8xy7 on `(b, a)`: 0 iff a borrow occurred (R158, R160). -/
def subFlag (a b : RegVal) : RegVal := flagByte (decide (¬ a.toNat < b.toNat))

/-- 8xy6: `a >> 1` (R159). -/
def shrResult (a : RegVal) : RegVal := a >>> 1

/-- 8xy6: bit 0 before the shift (R159). -/
def shrFlag (a : RegVal) : RegVal := a &&& 1

/-- 8xyE: `(a << 1) mod 256` (R161). -/
def shlResult (a : RegVal) : RegVal := a <<< 1

/-- 8xyE: bit 7 before the shift (R161). -/
def shlFlag (a : RegVal) : RegVal := (a >>> 7) &&& 1

/-- Fx33: the hundreds, tens and ones of a byte (R183). -/
def decimalDigits (v : RegVal) : List Byte :=
  [BitVec.ofNat 8 (v.toNat / 100), BitVec.ofNat 8 (v.toNat / 10 % 10), BitVec.ofNat 8 (v.toNat % 10)]

end Sys2Proof.Machine
end

