-- ==== Sys2Proof/Machine/Parameters.lean ====
section
/-! DEFINITION. The parameter values this machine has: the defaults of spec/00_scope.md R6. -/

namespace Sys2Proof.Machine

/-- The parameters of the machine: the sizes on which its types rest, `VF_ORDER` = `flag_last`, `KEY_PICK` = `any_pressed`, `I_OVERFLOW` = `fault`, `FONT` = the bytes of
R33. UNVERIFIED: they are the spec's own decisions D5, D11, D12, D18. Log entries 2, 5, 7, 8, 19. -/
def params : Params := { toSizes := Config.sizes }

end Sys2Proof.Machine
end

