-- ==== Sys2Proof/Machine/State.lean ====
section
/-! DEFINITION. The machine's state: the tuple `(M, fb, x[0..15], I, pc, stack[0..15], sp, key[0..15], DT, ST, fault)` of
spec/10_state.md, the reasons a step can stop, and the state after reset (R38, R280). -/

namespace Sys2Proof.Machine

/-- The kinds of the fault class `OutOfBounds` (R240). Each is safe or unsafe as its line says. -/
inductive OutOfBoundsKind where
  /-- The fetch at `pc` with `pc + 1 >= MEM_SIZE` (R93); raised by `fetch`; value: `pc`. Safe (D30). -/
  | fetch
  /-- 2nnn with `sp` = 16 (R123); raised by `State.push`; value: `sp`. Safe: the source names this fault. -/
  | stackOverflow
  /-- 00EE with `sp` = 0 (R121); raised by `State.pop`; value: `sp`. Safe (D32). -/
  | stackUnderflow
  /-- A read at an address `>= MEM_SIZE` (R66); raised by `memRead` for Dxyn and Fx65; value: the address. Safe (D13). -/
  | memRead
  /-- A write at an address `>= MEM_SIZE` (R66, R254); raised by `memWrite` for Fx33 and Fx55, and by `hostLoad`; value: the
  address. Safe (D13, D22). -/
  | memWrite
  /-- A key index `>= NUM_KEYS` (R200, R201, R252); raised by `keyIndex` for Ex9E, ExA1 and `keypress`; value: the index.
  Safe (D10, D21). -/
  | keyIndex
  /-- Fx1E with `I + Vx` above 0xFFFF when `I_OVERFLOW` is `fault` (R181); raised by `addAddress`; value: the sum. Safe (D12). -/
  | addrOverflow
  deriving DecidableEq, Repr

/-- The two fatal fault classes (R240). A fault ends the run; nothing is promised of the state it leaves (R242), and an outcome
`fault` carries none. -/
inductive Fault where
  /-- Class 1, code 1: an access outside memory, stack, keypad or the width of `I`; raised by the operations named at each kind.
  Safe: the machine stops. -/
  | outOfBounds (kind : OutOfBoundsKind) (value : Nat)
  /-- Class 2, code 2: the fetched word matches no row of the opcode table (R95, R97); raised by `step`. Safe: the source names it. -/
  | unrecognizedOpcode (op : Word)
  deriving DecidableEq, Repr

/-- Why an operation has no step. -/
inductive Refusal where
  /-- No meaning has been written for the instruction. Raised by no arm of `exec`: every instruction has its meaning. Safe. -/
  | notModelled (mnemonic : String)
  /-- `tick`, `tick_timers`, `keypress` or `load` in a faulted state, which has no step (R241). Raised by `step` and `hostCall`.
  Safe: the spec says a model refuses them. -/
  | faultedState
  deriving DecidableEq, Repr

/-- The framebuffer: row `r` (y), then column `c` (x); `true` is lit (R30). -/
abbrev Framebuffer := Vector (Vector Bool Config.dispW) Config.dispH

/-- Memory in canonical form: the bytes that differ from their reset contents, by rising address (Machine/Memory.lean). -/
abbrev Memory := List Host.Cell

/-- The state (R8, R20–R35). `draws` is the model's own field, not the spec's: it counts the free values drawn (log entry 3). -/
structure State where
  mem   : Memory
  fb    : Framebuffer
  v     : Vector RegVal Config.regCount
  i     : AddrVal
  pc    : PcVal
  stack : Vector PcVal Config.stackDepth
  sp    : Fin (Config.stackDepth + 1)
  key   : Vector Bool Config.numKeys
  dt    : TimerVal
  st    : TimerVal
  fault : Option Fault
  draws : Nat
  deriving DecidableEq, Repr

/-- The state after `new()` (R38, R280). Memory lists nothing: an unlisted address reads as its reset contents, the glyph atlas
below 0x050 and 0 elsewhere (`initialByte`). `draws` starts at 0: DESIGN CHOICE, log entry 3. -/
def State.reset : State where
  mem   := []
  fb    := Vector.replicate Config.dispH (Vector.replicate Config.dispW false)
  v     := Vector.replicate Config.regCount 0
  i     := 0
  pc    := BitVec.ofNat Config.pcWidth Config.loadAddr
  stack := Vector.replicate Config.stackDepth 0
  sp    := 0
  key   := Vector.replicate Config.numKeys false
  dt    := 0
  st    := 0
  fault := none
  draws := 0

end Sys2Proof.Machine
end

