-- ==== Sys2Proof/Machine/Memory.lean ====
section
/-! DEFINITION. Memory `M` (spec/10_state.md R31, spec/20_memory.md R60–R66) as a list of address and byte, in one canonical form, and
its two operations on one byte. Bounds are checked by the operations of Machine/Ops.lean. -/

namespace Sys2Proof.Machine

/-- What address `a` holds after reset (R38, R64): `FONT` in the glyph atlas, 0 elsewhere. It is what an unlisted address reads as. -/
def initialByte (a : Nat) : Byte :=
  if Config.fontBase ≤ a ∧ a < Config.fontBase + Config.fontLen then params.font.getD (a - Config.fontBase) 0 else 0

/-- `M[a]`. -/
def Memory.read : Memory → Nat → Byte
  | [], a => initialByte a
  | (k, b) :: m, a => if k = a then b else Memory.read m a

/-- `m` with no entry for `a`. -/
def Memory.erase (m : Memory) (a : Nat) : Memory :=
  m.filter (fun c => c.1 ≠ a)

/-- `m` with the entry `(a, b)` placed before the first greater address. -/
def Memory.insert : Memory → Nat → Byte → Memory
  | [], a, b => [(a, b)]
  | (k, c) :: m, a, b => if a < k then (a, b) :: (k, c) :: m else (k, c) :: Memory.insert m a b

/-- `M[a] <- b`. Writing what an unlisted address reads as removes the entry. -/
def Memory.write (m : Memory) (a : Nat) (b : Byte) : Memory :=
  if b = initialByte a then Memory.erase m a else Memory.insert (Memory.erase m a) a b

/-- The bytes written from `a` upwards. -/
def Memory.writeAll (m : Memory) (a : Nat) : List Byte → Memory
  | [] => m
  | b :: bs => Memory.writeAll (m.write a b) (a + 1) bs

/-- The canonical form: addresses strictly rising and below `MEM_SIZE`, and no entry equal to what an unlisted address reads as. -/
abbrev Memory.wf (m : Memory) : Prop :=
  m.Pairwise (fun c d => c.1 < d.1) ∧ ∀ c ∈ m, c.1 < Config.memSize ∧ c.2 ≠ initialByte c.1

end Sys2Proof.Machine
end

