-- ==== Sys2Proof/Machine/Operands.lean ====
section
/-! DEFINITION. The operand forms (spec/30_encoding.md R91, R92, spec/43_index_memory.md): registers, zero-extended immediates, the
address register plus an offset, the sprite's bits, the digit's glyph and the pressed keys. -/

namespace Sys2Proof.Machine

/-- `x[r]`. -/
def State.reg (s : State) (r : RegIx) : RegVal := s.v[r]

/-- `zext_16(NNN)` (R92). -/
def zextAddr (nnn : Addr12) : Word := nnn.setWidth 16

/-- The effective address `I + k`, an exact number (R66). -/
def State.effAddr (s : State) (k : Nat) : Nat := s.i.toNat + k

/-- `zext_16(V0) + zext_16(NNN)` of Bnnn: at most 0x10FE, so it never leaves 16 bits (R128). -/
def indexedTarget (v0 : RegVal) (nnn : Addr12) : PcVal := v0.setWidth Config.pcWidth + nnn.setWidth Config.pcWidth

/-- `FONT_BASE + 5 · d` of Fx29, with the whole value of the register (R182, D9): at most 0x4FB. -/
def glyphAddress (d : RegVal) : AddrVal := BitVec.ofNat Config.iWidth (Config.fontBase + Config.fontGlyphBytes * d.toNat)

/-- Bit `7 - col` of a sprite row: column 0 is the most significant bit (R142).
UNVERIFIED: the spec takes the order from general knowledge (D8). Unsafe: log entry 6. -/
def spriteBit (b : Byte) (col : Nat) : Bool := b.getLsbD (7 - col)

/-- The row and column of the framebuffer that a draw at `(cx, cy)` reaches at offset `(col, row)` (R143). -/
def wrapRow (cy row : Nat) : Fin Config.dispH := Fin.ofNat Config.dispH (cy + row)

/-- See `wrapRow`. -/
def wrapCol (cx col : Nat) : Fin Config.dispW := Fin.ofNat Config.dispW (cx + col)

/-- The pressed keys `P`, in increasing order (R203). -/
def State.pressed (s : State) : List KeyIx := (List.finRange Config.numKeys).filter (fun k => s.key[k])

/-- `pick(P)` of Fx0A (R203): under `lowest` the smallest member, under `any_pressed` the member that the free value names.
`none` iff no key is pressed. -/
def pickKey (how : KeyPick) (free : Nat) : List KeyIx → Option KeyIx
  | [] => none
  | k :: ks =>
    match how with
    | .lowest => some k
    | .anyPressed => (k :: ks)[free % (ks.length + 1)]?

end Sys2Proof.Machine
end

