-- ==== Sys2Proof/Machine/Ops.lean ====
section
/-! DEFINITION. The named operations over the state: reads and writes of each element, the bounds-checked accesses of memory (R9), the
call stack, the framebuffer, and raising a fault. An operation that can raise answers `Except Fault`. -/

namespace Sys2Proof.Machine

/-- The outcome of an instruction, a step or a host operation. -/
abbrev Outcome := Host.Outcome State Fault Refusal

/-! ## Raising a fault (R240 to R245)

The block has no trap entry, no saved state, no vector and no return (R244, R245): raising ends the run. -/

/-- `raise F`: the step ends with the fault, which is all it reports (R9, R241). -/
def raise (f : Fault) : Outcome := .fault f

/-- The state a fault leaves: `fault` is `some F`, and every other element is that of an arbitrary state `any` (R241, R242). -/
def State.faulted (any : State) (f : Fault) : State := { any with fault := some f }

/-- The outcome of an operation that may raise. -/
def finish : Except Fault State → Outcome
  | .ok s => .next s
  | .error f => raise f

/-! ## Registers, timers and the program counter -/

/-- `x[r] <- b`. -/
def State.setReg (s : State) (r : RegIx) (b : RegVal) : State := { s with v := s.v.set r b }

/-- `I <- a`. -/
def State.setI (s : State) (a : AddrVal) : State := { s with i := a }

/-- `pc <- a`. -/
def State.setPc (s : State) (a : PcVal) : State := { s with pc := a }

/-- `DT <- b`. -/
def State.setDt (s : State) (b : TimerVal) : State := { s with dt := b }

/-- `ST <- b`. -/
def State.setSt (s : State) (b : TimerVal) : State := { s with st := b }

/-- `pc <- pc + 2`: the fetch's advance and the skip (R93, R129). -/
def State.advance (s : State) : State := s.setPc (s.pc + BitVec.ofNat Config.pcWidth Config.insnBytes)

/-- `pc <- pc - 2`: the rewind of Fx0A (R203). -/
def State.rewind (s : State) : State := s.setPc (s.pc - BitVec.ofNat Config.pcWidth Config.insnBytes)

/-- Skip the next instruction if the condition holds (R129). -/
def State.skipIf (s : State) (c : Bool) : State := if c then s.advance else s

/-- One more free value has been drawn (log entry 3). -/
def State.drawn (s : State) : State := { s with draws := s.draws + 1 }

/-- The two writes of a flag-writing ALU instruction, in the order of `VF_ORDER` (R150). -/
def writeFlagged (order : VfOrder) (x : RegIx) (res flag : RegVal) (s : State) : State :=
  match order with
  | .flagLast => (s.setReg x res).setReg Config.flagReg flag
  | .resultLast => (s.setReg Config.flagReg flag).setReg x res

/-- `I <- I + b` of Fx1E, with the sum exact, and `I_OVERFLOW` past 16 bits (R181). -/
def addAddress (how : IOverflow) (b : RegVal) (s : State) : Except Fault State :=
  if s.i.toNat + b.toNat < 2 ^ Config.iWidth then .ok (s.setI (BitVec.ofNat Config.iWidth (s.i.toNat + b.toNat)))
  else
    match how with
    | .fault => .error (.outOfBounds .addrOverflow (s.i.toNat + b.toNat))
    | .wrap => .ok (s.setI (BitVec.ofNat Config.iWidth (s.i.toNat + b.toNat)))

/-! ## Memory (R9, R66) -/

/-- `MemRead(a, 1)`. -/
def memRead (s : State) (a : Nat) : Except Fault Byte :=
  if a < Config.memSize then .ok (s.mem.read a) else .error (.outOfBounds .memRead a)

/-- `MemWrite(a, 1, b)`. -/
def memWrite (s : State) (a : Nat) (b : Byte) : Except Fault State :=
  if a < Config.memSize then .ok { s with mem := s.mem.write a b } else .error (.outOfBounds .memWrite a)

/-- `n` bytes read from `a` upwards, one by one; the first address out of memory raises. -/
def readBytes (s : State) (a : Nat) : Nat → Except Fault (List Byte)
  | 0 => .ok []
  | n + 1 =>
    match memRead s a with
    | .error f => .error f
    | .ok b =>
      match readBytes s (a + 1) n with
      | .error f => .error f
      | .ok bs => .ok (b :: bs)

/-- The bytes written from `a` upwards, one by one; the first address out of memory raises. -/
def storeBytes (s : State) (a : Nat) : List Byte → Except Fault State
  | [] => .ok s
  | b :: bs =>
    match memWrite s a b with
    | .error f => .error f
    | .ok s' => storeBytes s' (a + 1) bs

/-- V0 to Vx, in order (R184). -/
def State.regsUpTo (s : State) (x : RegIx) : List Byte := s.v.toList.take (x.val + 1)

/-- `x[k] <- b_k` for the bytes from register `k` upwards (R185). Bytes past VF have no register. -/
def loadRegsFrom (s : State) (k : Nat) : List Byte → State
  | [] => s
  | b :: bs => if h : k < Config.regCount then loadRegsFrom (s.setReg ⟨k, h⟩ b) (k + 1) bs else s

/-! ## The call stack (R27, R121, R123) -/

/-- Push a return address; a full stack raises before any write. -/
def State.push (s : State) (a : PcVal) : Except Fault State :=
  if h : s.sp.val < Config.stackDepth then
    .ok { s with stack := s.stack.set s.sp.val a h, sp := ⟨s.sp.val + 1, Nat.succ_lt_succ h⟩ }
  else .error (.outOfBounds .stackOverflow s.sp.val)

/-- Pop the return address on top; an empty stack raises. The slot keeps its value (R27). -/
def State.pop (s : State) : Except Fault (PcVal × State) :=
  if h : s.sp.val = 0 then .error (.outOfBounds .stackUnderflow s.sp.val)
  else
    .ok (s.stack[s.sp.val - 1]'(by have := s.sp.isLt; unfold Config.stackDepth at *; omega),
      { s with sp := ⟨s.sp.val - 1, Nat.lt_of_le_of_lt (Nat.sub_le _ _) s.sp.isLt⟩ })

/-! ## The keypad (R29, R200) -/

/-- The key a value names; a value past the keypad raises. -/
def keyIndex (k : Nat) : Except Fault KeyIx :=
  if h : k < Config.numKeys then .ok ⟨k, h⟩ else .error (.outOfBounds .keyIndex k)

/-! ## The framebuffer (R30, R143) -/

/-- `fb[r][c]`. -/
def pixel (fb : Framebuffer) (r : Fin Config.dispH) (c : Fin Config.dispW) : Bool := fb[r][c]

/-- `fb[r][c] <- not fb[r][c]`. -/
def flipPixel (fb : Framebuffer) (r : Fin Config.dispH) (c : Fin Config.dispW) : Framebuffer :=
  fb.set r (fb[r].set c (!pixel fb r c))

/-- The dark framebuffer (R140). -/
def darkScreen : Framebuffer := Vector.replicate Config.dispH (Vector.replicate Config.dispW false)

/-- A draw in progress: the framebuffer and whether a collision has occurred. -/
abbrev Drawing := Framebuffer × Bool

/-- XOR one set bit of a sprite into pixel `(r, c)`: a lit pixel that goes dark is a collision (R143, R144). -/
def xorPixel (d : Drawing) (r : Fin Config.dispH) (c : Fin Config.dispW) : Drawing :=
  (flipPixel d.1 r c, d.2 || pixel d.1 r c)

/-- The columns `cols` of one sprite row `b`, at row `r` and from column `cx` (R143). -/
def drawColumns (b : Byte) (r : Fin Config.dispH) (cx : Nat) : List Nat → Drawing → Drawing
  | [], d => d
  | col :: cols, d => drawColumns b r cx cols (if spriteBit b col then xorPixel d r (wrapCol cx col) else d)

/-- The sprite rows, the first at row offset `row` (R143). -/
def drawRows (cx cy : Nat) : Nat → List Byte → Drawing → Drawing
  | _, [], d => d
  | row, b :: bs, d =>
    drawRows cx cy (row + 1) bs (drawColumns b (wrapRow cy row) cx (List.range Config.spriteW) d)

end Sys2Proof.Machine
end

