-- ==== Sys2Proof/Machine/Alu.lean ====
section
/-! DEFINITION. Register loads, arithmetic, logic, shifts and the random byte (spec/42_alu.md). Operands are read before any write (R9);
the five flag-writing instructions write in the order `params.vfOrder` (R150). -/

namespace Sys2Proof.Machine

/-- LD Vx, byte, R151. -/
def execLdByte (x : RegIx) (kk : Byte) (s : State) : Outcome := .next (s.setReg x kk)

/-- ADD Vx, byte, R152: wraps, and writes no flag. -/
def execAddByte (x : RegIx) (kk : Byte) (s : State) : Outcome := .next (s.setReg x (addResult (s.reg x) kk))

/-- LD Vx, Vy, R153. -/
def execLdReg (x y : RegIx) (s : State) : Outcome := .next (s.setReg x (s.reg y))

/-- OR Vx, Vy, R154: no flag (D7). -/
def execOrReg (x y : RegIx) (s : State) : Outcome := .next (s.setReg x (s.reg x ||| s.reg y))

/-- AND Vx, Vy, R155: no flag (D7). -/
def execAndReg (x y : RegIx) (s : State) : Outcome := .next (s.setReg x (s.reg x &&& s.reg y))

/-- XOR Vx, Vy, R156: no flag (D7). -/
def execXorReg (x y : RegIx) (s : State) : Outcome := .next (s.setReg x (s.reg x ^^^ s.reg y))

/-- ADD Vx, Vy, R157: the flag is the carry. -/
def execAddReg (x y : RegIx) (s : State) : Outcome :=
  .next (writeFlagged params.vfOrder x (addResult (s.reg x) (s.reg y)) (addFlag (s.reg x) (s.reg y)) s)

/-- SUB Vx, Vy, R158: the flag is 0 on a borrow. -/
def execSub (x y : RegIx) (s : State) : Outcome :=
  .next (writeFlagged params.vfOrder x (subResult (s.reg x) (s.reg y)) (subFlag (s.reg x) (s.reg y)) s)

/-- SHR Vx, R159: the flag is bit 0 before the shift. -/
def execShr (x : RegIx) (s : State) : Outcome :=
  .next (writeFlagged params.vfOrder x (shrResult (s.reg x)) (shrFlag (s.reg x)) s)

/-- SUBN Vx, Vy, R160: `Vy - Vx`, the flag is 0 on a borrow. -/
def execSubn (x y : RegIx) (s : State) : Outcome :=
  .next (writeFlagged params.vfOrder x (subResult (s.reg y) (s.reg x)) (subFlag (s.reg y) (s.reg x)) s)

/-- SHL Vx, R161: the flag is bit 7 before the shift. -/
def execShl (x : RegIx) (s : State) : Outcome :=
  .next (writeFlagged params.vfOrder x (shlResult (s.reg x)) (shlFlag (s.reg x)) s)

/-- RND Vx, byte, R163: the drawn byte is a free value (log entry 1). -/
def execRnd (x : RegIx) (kk : Byte) (s : State) : Outcome :=
  .next (s.setReg x (Config.randomByte s.draws &&& kk)).drawn

end Sys2Proof.Machine
end

