-- ==== Sys2Proof/Machine/Control.lean ====
section
/-! DEFINITION. Control flow: the no-op, return, jump, call, the register and immediate skips and the indexed jump
(spec/40_control_flow.md). `s.pc` is the address after the instruction (R23). -/

namespace Sys2Proof.Machine

/-- NOP, R120. -/
def execNop (s : State) : Outcome := .next s

/-- RET, R121: an empty stack raises `StackUnderflow`. -/
def execRet (s : State) : Outcome :=
  match s.pop with
  | .error f => raise f
  | .ok (a, s') => .next (s'.setPc a)

/-- JP addr, R122. -/
def execJp (nnn : Addr12) (s : State) : Outcome := .next (s.setPc (zextAddr nnn))

/-- CALL addr, R123: the address pushed is that of the next instruction; a full stack raises `StackOverflow`. -/
def execCall (nnn : Addr12) (s : State) : Outcome :=
  match s.push s.pc with
  | .error f => raise f
  | .ok s' => .next (s'.setPc (zextAddr nnn))

/-- SE Vx, byte, R124. -/
def execSeByte (x : RegIx) (kk : Byte) (s : State) : Outcome := .next (s.skipIf (decide (s.reg x = kk)))

/-- SNE Vx, byte, R125. -/
def execSneByte (x : RegIx) (kk : Byte) (s : State) : Outcome := .next (s.skipIf (decide (s.reg x ≠ kk)))

/-- SE Vx, Vy, R126. -/
def execSeReg (x y : RegIx) (s : State) : Outcome := .next (s.skipIf (decide (s.reg x = s.reg y)))

/-- SNE Vx, Vy, R127. -/
def execSneReg (x y : RegIx) (s : State) : Outcome := .next (s.skipIf (decide (s.reg x ≠ s.reg y)))

/-- JP V0, addr, R128: always V0, and the sum is not reduced to 12 bits (D15). -/
def execJpV0 (nnn : Addr12) (s : State) : Outcome := .next (s.setPc (indexedTarget (s.reg 0) nnn))

end Sys2Proof.Machine
end

