-- ==== Sys2Proof/Machine/Display.lean ====
section
/-! DEFINITION. The display: the screen clear and the XOR sprite draw (spec/41_display.md). -/

namespace Sys2Proof.Machine

/-- CLS, R140. -/
def execCls (s : State) : Outcome := .next { s with fb := darkScreen }

/-- DRW Vx, Vy, nibble, R143: the sprite's `n` bytes are read from `I` upwards (the first address out of memory raises `MemRead`), then
drawn; VF is written last, on every draw. Reading all rows before drawing is the pseudocode's result, since drawing writes no
memory and a fault discards the state: DEDUCED, safe (log entry 21). -/
def execDrw (x y : RegIx) (n : Nat) (s : State) : Outcome :=
  match readBytes s (s.effAddr 0) n with
  | .error f => raise f
  | .ok sprite =>
    let d := drawRows (s.reg x).toNat (s.reg y).toNat 0 sprite (s.fb, false)
    .next ({ s with fb := d.1 }.setReg Config.flagReg (flagByte d.2))

end Sys2Proof.Machine
end

