-- ==== Sys2Proof/Machine/Index.lean ====
section
/-! DEFINITION. The address register and the transfers through it (spec/43_index_memory.md). No transfer changes `I` (D14). -/

namespace Sys2Proof.Machine

/-- LD I, addr, R180. -/
def execLdI (nnn : Addr12) (s : State) : Outcome := .next (s.setI (zextAddr nnn))

/-- ADD I, Vx, R181: no flag; a sum past 0xFFFF as `I_OVERFLOW` says. -/
def execAddI (x : RegIx) (s : State) : Outcome := finish (addAddress params.iOverflow (s.reg x) s)

/-- LD F, Vx, R182. -/
def execLdF (x : RegIx) (s : State) : Outcome := .next (s.setI (glyphAddress (s.reg x)))

/-- LD B, Vx, R183: hundreds, tens and ones at `I`, `I + 1`, `I + 2`. -/
def execLdB (x : RegIx) (s : State) : Outcome := finish (storeBytes s (s.effAddr 0) (decimalDigits (s.reg x)))

/-- LD [I], Vx, R184: V0 to Vx inclusive at `I` upwards. -/
def execStRegs (x : RegIx) (s : State) : Outcome := finish (storeBytes s (s.effAddr 0) (s.regsUpTo x))

/-- LD Vx, [I], R185: V0 to Vx inclusive from `I` upwards. -/
def execLdRegs (x : RegIx) (s : State) : Outcome :=
  match readBytes s (s.effAddr 0) (x.val + 1) with
  | .error f => raise f
  | .ok bs => .next (loadRegsFrom s 0 bs)

end Sys2Proof.Machine
end

