-- ==== Sys2Proof/Machine/Keypad.lean ====
section
/-! DEFINITION. The key skips, the key wait and the timer transfers (spec/44_keypad_timers.md). -/

namespace Sys2Proof.Machine

/-- SKP Vx, R200: a value past the keypad raises `KeyIndex` (D10). -/
def execSkp (x : RegIx) (s : State) : Outcome :=
  match keyIndex (s.reg x).toNat with
  | .error f => raise f
  | .ok k => .next (s.skipIf s.key[k])

/-- SKNP Vx, R201: a value past the keypad raises `KeyIndex` (D10). -/
def execSknp (x : RegIx) (s : State) : Outcome :=
  match keyIndex (s.reg x).toNat with
  | .error f => raise f
  | .ok k => .next (s.skipIf (!s.key[k]))

/-- LD Vx, DT, R202. -/
def execLdVxDt (x : RegIx) (s : State) : Outcome := .next (s.setReg x s.dt)

/-- LD Vx, K, R203: with no key pressed the instruction rewinds to itself; else Vx receives a pressed key, which one of several being a
free value under `any_pressed` (log entry 2). -/
def execLdVxK (x : RegIx) (s : State) : Outcome :=
  match pickKey params.keyPick (Config.keyChoice s.draws) s.pressed with
  | none => .next s.rewind
  | some k => .next (s.setReg x (BitVec.ofNat Config.regWidth k.val)).drawn

/-- LD DT, Vx, R204. -/
def execLdDtVx (x : RegIx) (s : State) : Outcome := .next (s.setDt (s.reg x))

/-- LD ST, Vx, R205. -/
def execLdStVx (x : RegIx) (s : State) : Outcome := .next (s.setSt (s.reg x))

end Sys2Proof.Machine
end

