-- ==== Sys2Proof/Syntax.lean ====
section
/-! DEFINITION. The instructions: one constructor per row of spec/opcode_table.json (spec/30_encoding.md R95). Operands are the
fields of R10: `x`, `y` register indices, `kk` the byte, `nnn` the 12-bit address, `n` the sprite's row count. The y nibble of 8xy6
and 8xyE is ignored (R98), so it is no operand. -/

namespace Sys2Proof

inductive Instr where
  /-- `0000` NOP, R120. -/
  | nop
  /-- `00E0` CLS, R140. -/
  | cls
  /-- `00EE` RET, R121. -/
  | ret
  /-- `1nnn` JP addr, R122. -/
  | jp (nnn : Addr12)
  /-- `2nnn` CALL addr, R123. -/
  | call (nnn : Addr12)
  /-- `3xkk` SE Vx, byte, R124. -/
  | seByte (x : RegIx) (kk : Byte)
  /-- `4xkk` SNE Vx, byte, R125. -/
  | sneByte (x : RegIx) (kk : Byte)
  /-- `5xy0` SE Vx, Vy, R126. -/
  | seReg (x y : RegIx)
  /-- `6xkk` LD Vx, byte, R151. -/
  | ldByte (x : RegIx) (kk : Byte)
  /-- `7xkk` ADD Vx, byte, R152. -/
  | addByte (x : RegIx) (kk : Byte)
  /-- `8xy0` LD Vx, Vy, R153. -/
  | ldReg (x y : RegIx)
  /-- `8xy1` OR Vx, Vy, R154. -/
  | orReg (x y : RegIx)
  /-- `8xy2` AND Vx, Vy, R155. -/
  | andReg (x y : RegIx)
  /-- `8xy3` XOR Vx, Vy, R156. -/
  | xorReg (x y : RegIx)
  /-- `8xy4` ADD Vx, Vy, R157. -/
  | addReg (x y : RegIx)
  /-- `8xy5` SUB Vx, Vy, R158. -/
  | sub (x y : RegIx)
  /-- `8x_6` SHR Vx, R159. -/
  | shr (x : RegIx)
  /-- `8xy7` SUBN Vx, Vy, R160. -/
  | subn (x y : RegIx)
  /-- `8x_E` SHL Vx, R161. -/
  | shl (x : RegIx)
  /-- `9xy0` SNE Vx, Vy, R127. -/
  | sneReg (x y : RegIx)
  /-- `Annn` LD I, addr, R180. -/
  | ldI (nnn : Addr12)
  /-- `Bnnn` JP V0, addr, R128. -/
  | jpV0 (nnn : Addr12)
  /-- `Cxkk` RND Vx, byte, R163. -/
  | rnd (x : RegIx) (kk : Byte)
  /-- `Dxyn` DRW Vx, Vy, nibble, R143; `n` is a count, and `Instr.wellFormed` bounds it by 15. -/
  | drw (x y : RegIx) (n : Nat)
  /-- `Ex9E` SKP Vx, R200. -/
  | skp (x : RegIx)
  /-- `ExA1` SKNP Vx, R201. -/
  | sknp (x : RegIx)
  /-- `Fx07` LD Vx, DT, R202. -/
  | ldVxDt (x : RegIx)
  /-- `Fx0A` LD Vx, K, R203. -/
  | ldVxK (x : RegIx)
  /-- `Fx15` LD DT, Vx, R204. -/
  | ldDtVx (x : RegIx)
  /-- `Fx18` LD ST, Vx, R205. -/
  | ldStVx (x : RegIx)
  /-- `Fx1E` ADD I, Vx, R181. -/
  | addI (x : RegIx)
  /-- `Fx29` LD F, Vx, R182. -/
  | ldF (x : RegIx)
  /-- `Fx33` LD B, Vx, R183. -/
  | ldB (x : RegIx)
  /-- `Fx55` LD [I], Vx, R184. -/
  | stRegs (x : RegIx)
  /-- `Fx65` LD Vx, [I], R185. -/
  | ldRegs (x : RegIx)
  deriving DecidableEq, Repr

end Sys2Proof
end

