-- ==== Sys2Proof/Decode.lean ====
section
/-! DEFINITION. The decoder and, after it, the encoder (spec/30_encoding.md R90–R98). The decoder is the opcode table of R95: a row
matches a word when `op & mask = match`. It is total, and refuses by name. -/

namespace Sys2Proof

/-! ## Byte order and fields -/

/-- Big-endian combination of the two bytes of a fetch (R62): the first byte is bits 15:8. -/
def wordOfBytes (hi lo : Byte) : Word := hi ++ lo

/-- Bits 15:8 of an opcode, the byte at the lower address (R62). -/
def highByte (op : Word) : Byte := op.extractLsb' 8 8

/-- Bits 7:0 of an opcode, the byte at the higher address (R62). -/
def lowByte (op : Word) : Byte := op.extractLsb' 0 8

/-- `X = op[11:8]` (R10). -/
def fieldX (op : Word) : RegIx := (op.extractLsb' 8 4).toFin

/-- `Y = op[7:4]` (R10). -/
def fieldY (op : Word) : RegIx := (op.extractLsb' 4 4).toFin

/-- `N = op[3:0]` (R10), as a count. -/
def fieldN (op : Word) : Nat := (op.extractLsb' 0 4).toNat

/-- `KK = op[7:0]` (R10). -/
def fieldKK (op : Word) : Byte := op.extractLsb' 0 8

/-- `NNN = op[11:0]` (R10). -/
def fieldNNN (op : Word) : Addr12 := op.extractLsb' 0 12

/-! ## The opcode table (R95) -/

/-- A row of the opcode table: its `match` and `mask` words and the instruction its fields give. -/
structure OpcodeRow where
  pattern : Word
  mask    : Word
  build   : Word → Instr

/-- A row matches a word when `op & mask = match` (R96). -/
def OpcodeRow.accepts (r : OpcodeRow) (op : Word) : Bool := decide (op &&& r.mask = r.pattern)

/-- Rows `0,0,0,0` to `7,x,k,k` of R95. -/
def opcodeRowsLow : List OpcodeRow :=
  [⟨0x0000, 0xFFFF, fun _ => .nop⟩,
   ⟨0x00E0, 0xFFFF, fun _ => .cls⟩,
   ⟨0x00EE, 0xFFFF, fun _ => .ret⟩,
   ⟨0x1000, 0xF000, fun op => .jp (fieldNNN op)⟩,
   ⟨0x2000, 0xF000, fun op => .call (fieldNNN op)⟩,
   ⟨0x3000, 0xF000, fun op => .seByte (fieldX op) (fieldKK op)⟩,
   ⟨0x4000, 0xF000, fun op => .sneByte (fieldX op) (fieldKK op)⟩,
   ⟨0x5000, 0xF00F, fun op => .seReg (fieldX op) (fieldY op)⟩,
   ⟨0x6000, 0xF000, fun op => .ldByte (fieldX op) (fieldKK op)⟩,
   ⟨0x7000, 0xF000, fun op => .addByte (fieldX op) (fieldKK op)⟩]

/-- Rows `8,x,y,0` to `9,x,y,0` of R95. -/
def opcodeRowsAlu : List OpcodeRow :=
  [⟨0x8000, 0xF00F, fun op => .ldReg (fieldX op) (fieldY op)⟩,
   ⟨0x8001, 0xF00F, fun op => .orReg (fieldX op) (fieldY op)⟩,
   ⟨0x8002, 0xF00F, fun op => .andReg (fieldX op) (fieldY op)⟩,
   ⟨0x8003, 0xF00F, fun op => .xorReg (fieldX op) (fieldY op)⟩,
   ⟨0x8004, 0xF00F, fun op => .addReg (fieldX op) (fieldY op)⟩,
   ⟨0x8005, 0xF00F, fun op => .sub (fieldX op) (fieldY op)⟩,
   ⟨0x8006, 0xF00F, fun op => .shr (fieldX op)⟩,
   ⟨0x8007, 0xF00F, fun op => .subn (fieldX op) (fieldY op)⟩,
   ⟨0x800E, 0xF00F, fun op => .shl (fieldX op)⟩,
   ⟨0x9000, 0xF00F, fun op => .sneReg (fieldX op) (fieldY op)⟩]

/-- Rows `A,n,n,n` to `F,x,6,5` of R95. -/
def opcodeRowsHigh : List OpcodeRow :=
  [⟨0xA000, 0xF000, fun op => .ldI (fieldNNN op)⟩,
   ⟨0xB000, 0xF000, fun op => .jpV0 (fieldNNN op)⟩,
   ⟨0xC000, 0xF000, fun op => .rnd (fieldX op) (fieldKK op)⟩,
   ⟨0xD000, 0xF000, fun op => .drw (fieldX op) (fieldY op) (fieldN op)⟩,
   ⟨0xE09E, 0xF0FF, fun op => .skp (fieldX op)⟩,
   ⟨0xE0A1, 0xF0FF, fun op => .sknp (fieldX op)⟩,
   ⟨0xF007, 0xF0FF, fun op => .ldVxDt (fieldX op)⟩,
   ⟨0xF00A, 0xF0FF, fun op => .ldVxK (fieldX op)⟩,
   ⟨0xF015, 0xF0FF, fun op => .ldDtVx (fieldX op)⟩,
   ⟨0xF018, 0xF0FF, fun op => .ldStVx (fieldX op)⟩,
   ⟨0xF01E, 0xF0FF, fun op => .addI (fieldX op)⟩,
   ⟨0xF029, 0xF0FF, fun op => .ldF (fieldX op)⟩,
   ⟨0xF033, 0xF0FF, fun op => .ldB (fieldX op)⟩,
   ⟨0xF055, 0xF0FF, fun op => .stRegs (fieldX op)⟩,
   ⟨0xF065, 0xF0FF, fun op => .ldRegs (fieldX op)⟩]

/-- The opcode table of R95, in its order. -/
def opcodeTable : List OpcodeRow := opcodeRowsLow ++ opcodeRowsAlu ++ opcodeRowsHigh

/-! ## Decoding -/

/-- `Decode(op)` of R95; `none` where no row matches, which is the fault `UnrecognizedOpcode(op)`. -/
def decodeWord (op : Word) : Option Instr :=
  (opcodeTable.find? (fun r => r.accepts op)).map (fun r => r.build op)

/-- Why bytes hold no instruction. -/
inductive DecodeError where
  /-- Fewer than two bytes. -/
  | truncated (available : Nat)
  /-- A word no row matches (R97). -/
  | unrecognizedOpcode (op : Word)
  deriving DecidableEq, Repr

/-- The decoder on bytes: the instruction and the bytes after it (R90: every instruction is two bytes, the high byte first). -/
def decode : List Byte → Except DecodeError (Instr × List Byte)
  | hi :: lo :: rest =>
    match decodeWord (wordOfBytes hi lo) with
    | some i => .ok (i, rest)
    | none => .error (.unrecognizedOpcode (wordOfBytes hi lo))
  | short => .error (.truncated short.length)

/-- The bytes of an opcode as memory holds them (R62). -/
def bytesOfWord (op : Word) : List Byte := [highByte op, lowByte op]

/-- The opcode with the table's bits `w`, of which the row gives the lowest `nbits`; the bits above are 0. -/
def tableWord (nbits w : Nat) : Word := BitVec.ofNat 16 (w % 2 ^ nbits)

/-- What the decoder reads from the instruction whose bits are `w`, numbered as spec/opcode_table.json numbers them. -/
def decodeTableWord (nbits w : Nat) : Option Instr :=
  match decode (bytesOfWord (tableWord nbits w)) with
  | .ok (i, _) => some i
  | .error _ => none

/-! ## Encoding -/

/-- A register index in the place of `X`. -/
def placeX (x : RegIx) : Word := BitVec.ofNat 16 x.val <<< 8

/-- A register index in the place of `Y`. -/
def placeY (y : RegIx) : Word := BitVec.ofNat 16 y.val <<< 4

/-- A row count in the place of `N`; only its low four bits have a place. -/
def placeN (n : Nat) : Word := (BitVec.ofNat 4 n).setWidth 16

/-- A byte in the place of `KK`. -/
def placeKK (kk : Byte) : Word := kk.setWidth 16

/-- An address in the place of `NNN`. -/
def placeNNN (nnn : Addr12) : Word := nnn.setWidth 16

/-- The opcode of an instruction, from the "Encoding" line of its rule. The ignored y nibble of 8xy6 and 8xyE is written as 0:
DESIGN CHOICE, safe (log entry 20). -/
def encode : Instr → Word
  | .nop => 0x0000
  | .cls => 0x00E0
  | .ret => 0x00EE
  | .jp nnn => 0x1000 ||| placeNNN nnn
  | .call nnn => 0x2000 ||| placeNNN nnn
  | .seByte x kk => 0x3000 ||| placeX x ||| placeKK kk
  | .sneByte x kk => 0x4000 ||| placeX x ||| placeKK kk
  | .seReg x y => 0x5000 ||| placeX x ||| placeY y
  | .ldByte x kk => 0x6000 ||| placeX x ||| placeKK kk
  | .addByte x kk => 0x7000 ||| placeX x ||| placeKK kk
  | .ldReg x y => 0x8000 ||| placeX x ||| placeY y
  | .orReg x y => 0x8001 ||| placeX x ||| placeY y
  | .andReg x y => 0x8002 ||| placeX x ||| placeY y
  | .xorReg x y => 0x8003 ||| placeX x ||| placeY y
  | .addReg x y => 0x8004 ||| placeX x ||| placeY y
  | .sub x y => 0x8005 ||| placeX x ||| placeY y
  | .shr x => 0x8006 ||| placeX x
  | .subn x y => 0x8007 ||| placeX x ||| placeY y
  | .shl x => 0x800E ||| placeX x
  | .sneReg x y => 0x9000 ||| placeX x ||| placeY y
  | .ldI nnn => 0xA000 ||| placeNNN nnn
  | .jpV0 nnn => 0xB000 ||| placeNNN nnn
  | .rnd x kk => 0xC000 ||| placeX x ||| placeKK kk
  | .drw x y n => 0xD000 ||| placeX x ||| placeY y ||| placeN n
  | .skp x => 0xE09E ||| placeX x
  | .sknp x => 0xE0A1 ||| placeX x
  | .ldVxDt x => 0xF007 ||| placeX x
  | .ldVxK x => 0xF00A ||| placeX x
  | .ldDtVx x => 0xF015 ||| placeX x
  | .ldStVx x => 0xF018 ||| placeX x
  | .addI x => 0xF01E ||| placeX x
  | .ldF x => 0xF029 ||| placeX x
  | .ldB x => 0xF033 ||| placeX x
  | .stRegs x => 0xF055 ||| placeX x
  | .ldRegs x => 0xF065 ||| placeX x

/-- The instruction's two bytes, as the decoder takes them. -/
def encodeBytes (i : Instr) : List Byte := bytesOfWord (encode i)

end Sys2Proof
end

