-- ==== Sys2Proof/Machine/Fetch.lean ====
section
/-! DEFINITION. Fetching an instruction (spec/30_encoding.md R93), and placing one where the next fetch reads. -/

namespace Sys2Proof.Machine

/-- `Fetch()` of R93: the word at `pc`, big-endian, and the state with `pc` advanced by 2. An address `pc + 1` out of memory raises
`OutOfBounds(Fetch, pc)`. `pc` may be odd (R63). -/
def fetch (s : State) : Except Fault (Word × State) :=
  if s.pc.toNat + 1 ≥ Config.memSize then .error (.outOfBounds .fetch s.pc.toNat)
  else .ok (wordOfBytes (s.mem.read s.pc.toNat) (s.mem.read (s.pc.toNat + 1)), s.advance)

/-- `s` with the opcode `op` in memory where the next fetch reads it, its high byte at `pc` (R62). Where no fetch is possible, because
`pc + 1` is out of memory, the state is left as it is. -/
def placeWord (s : State) (op : Word) : State :=
  if s.pc.toNat + 1 ≥ Config.memSize then s
  else { s with mem := (s.mem.write s.pc.toNat (highByte op)).write (s.pc.toNat + 1) (lowByte op) }

end Sys2Proof.Machine
end

