-- ==== Sys2Proof/Machine/Step.lean ====
section
/-! DEFINITION. One step, `tick()` (spec/30_encoding.md R94): fetch, decode, execute. -/

namespace Sys2Proof.Machine

/-- `tick()`. A faulted machine has no step (R241); a fault at any point ends the step (R94, R243). -/
def step (s : State) : Host.Outcome State Fault Refusal :=
  match s.fault with
  | some _ => .refused .faultedState
  | none =>
    match fetch s with
    | .error f => raise f
    | .ok (op, s') =>
      match decodeWord op with
      | none => raise (.unrecognizedOpcode op)
      | some i => exec i s'

/-- `s` with the instruction whose table bits are `w` stored where the next fetch reads. The host's `load` is what puts a program there
on the hardware: log entry 23. -/
def State.withFetchWord (s : State) (nbits w : Nat) : State := placeWord s (tableWord nbits w)

end Sys2Proof.Machine
end

