-- ==== Sys2Proof/Machine/HostInterface.lean ====
section
/-! DEFINITION. The host's operations (spec/60_exceptions.md R250–R256, spec/70_reset_and_hazards.md R280): everything outside the
block can do to it. Each is atomic and runs between steps (R69). In a faulted state `load`, `tick`, `tick_timers` and `keypress` are
refused, the two queries answer a free value, and `reset` leaves the state (R241). -/

namespace Sys2Proof.Machine

/-- An operation of R255 on a machine that exists; `new()` is `State.reset`. -/
inductive HostCall where
  | reset
  | load (data : List Byte)
  | tick
  | tickTimers
  | getDisplay
  | keypress (index : Nat) (pressed : Bool)
  | shouldPlaySound
  deriving DecidableEq, Repr

/-- What an operation answers to the host. -/
inductive HostReply where
  | none
  | display (fb : Framebuffer)
  | sound (playing : Bool)
  deriving DecidableEq, Repr

/-- `reset()` (R280, R281): every element of the spec's state as after `new()`. The model's own counter of free values runs on, so that
nothing can be proved of a draw after a reset from a draw before it: DESIGN CHOICE, safe (log entry 3). -/
def hostReset (s : State) : State := { State.reset with draws := s.draws }

/-- `load(data)` (R254): an image past the end of memory raises before any byte is written (D22). -/
def hostLoad (data : List Byte) (s : State) : Outcome :=
  if data.length > Config.maxImage then raise (.outOfBounds .memWrite (Config.loadAddr + data.length - 1))
  else finish (storeBytes s Config.loadAddr data)

/-- A countdown with its floor at 0 (R250). -/
def countDown (b : TimerVal) : TimerVal := if b.toNat > 0 then b - 1 else b

/-- `tick_timers()` (R250). -/
def hostTickTimers (s : State) : State := { s with dt := countDown s.dt, st := countDown s.st }

/-- `key[k] <- pressed`. -/
def State.setKey (s : State) (k : KeyIx) (pressed : Bool) : State := { s with key := s.key.set k pressed }

/-- `keypress(index, pressed)` (R252): an index past the keypad raises `KeyIndex` (D21). -/
def hostKeypress (index : Nat) (pressed : Bool) (s : State) : Outcome :=
  match keyIndex index with
  | .error f => raise f
  | .ok k => .next (s.setKey k pressed)

/-- `get_display()` (R253), and a free value in a faulted state (R241). -/
def displayView (s : State) : Framebuffer :=
  match s.fault with
  | none => s.fb
  | some _ => Config.faultedDisplay s.draws

/-- `should_play_sound()` (R251): true iff `ST = 1`; a free value in a faulted state (R241). -/
def soundView (s : State) : Bool :=
  match s.fault with
  | none => decide (s.st = 1)
  | some _ => Config.faultedSound s.draws

/-- The state after a query: unchanged, but that a free value has been drawn in a faulted state. -/
def afterQuery (s : State) : State :=
  match s.fault with
  | none => s
  | some _ => s.drawn

/-- An operation that has no step in a faulted state (R241). -/
def unlessFaulted (f : State → Outcome) (s : State) : Outcome :=
  match s.fault with
  | none => f s
  | some _ => .refused .faultedState

/-- The state part of a host operation. -/
def hostState : HostCall → State → Outcome
  | .reset, s => .next (hostReset s)
  | .load data, s => unlessFaulted (hostLoad data) s
  | .tick, s => step s
  | .tickTimers, s => unlessFaulted (fun t => .next (hostTickTimers t)) s
  | .getDisplay, s => .next (afterQuery s)
  | .keypress index pressed, s => unlessFaulted (hostKeypress index pressed) s
  | .shouldPlaySound, s => .next (afterQuery s)

/-- The answer part of a host operation. -/
def hostReply : HostCall → State → HostReply
  | .getDisplay, s => .display (displayView s)
  | .shouldPlaySound, s => .sound (soundView s)
  | .reset, _ | .load _, _ | .tick, _ | .tickTimers, _ | .keypress _ _, _ => .none

/-- One host operation: the next state and the answer, a fault, or a refusal (R255). -/
def hostCall (c : HostCall) (s : State) : Host.Outcome (State × HostReply) Fault Refusal :=
  match hostState c s with
  | .next t => .next (t, hostReply c s)
  | .fault f => .fault f
  | .refused r => .refused r

end Sys2Proof.Machine
end

