-- ==== Sys2Proof/Safety.lean ====
section
/-! DEFINITION. The terms in which claims about whole runs are stated: the invariants, what each instruction may write, the steps and
runs of the machine under its host, and the end of a run (spec/60_exceptions.md R241, R242, R256, R258). -/

namespace Sys2Proof.Machine

/-! ## Invariants -/

/-- The invariant of a machine that has not faulted: memory is canonical, `pc` is at most 0x10FE, so no arithmetic on it wraps (R25), and
every stack slot holds an address a call can push (R121, R123: at most `MEM_SIZE`) or 0. -/
def State.inv (s : State) : Prop :=
  s.mem.wf ∧ s.pc.toNat ≤ 0x10FE ∧ ∀ j : Fin Config.stackDepth, s.stack[j].toNat ≤ Config.memSize

/-- The invariant of the machine under its host: memory is canonical, and nothing else is promised of a faulted state (R242). -/
def State.sysInv (s : State) : Prop := s.mem.wf ∧ (s.fault = none → s.inv)

/-! ## What an instruction may write -/

/-- The state elements an instruction may write; everything else it leaves unchanged. -/
structure Footprint where
  /-- General registers, VF as the flag among them. -/
  regs    : List RegIx := []
  /-- `I`. -/
  addr    : Bool := false
  /-- `pc`, beyond the fetch's advance. -/
  pc      : Bool := false
  /-- Return-stack slots. -/
  slots   : Bool := false
  /-- `sp`. -/
  sp      : Bool := false
  /-- The framebuffer. -/
  display : Bool := false
  /-- `DT`. -/
  dt      : Bool := false
  /-- `ST`. -/
  st      : Bool := false
  /-- How many bytes of memory, from the address in `I` upwards. -/
  stored  : Nat := 0
  /-- The model's own counter of free values. -/
  draws   : Bool := false
  deriving DecidableEq, Repr

/-- What each instruction may write: registers by R22, `pc` by R24, `I` by R26, the stack by R27, the timers by R28, the framebuffer by
R30, memory by R60. No instruction writes the keypad (R29) or, completing, `fault` (R35). -/
def footprint : Instr → Footprint
  | .nop => {}
  | .cls => { display := true }
  | .ret => { pc := true, sp := true }
  | .jp _ => { pc := true }
  | .call _ => { pc := true, slots := true, sp := true }
  | .seByte _ _ => { pc := true }
  | .sneByte _ _ => { pc := true }
  | .seReg _ _ => { pc := true }
  | .ldByte x _ => { regs := [x] }
  | .addByte x _ => { regs := [x] }
  | .ldReg x _ => { regs := [x] }
  | .orReg x _ => { regs := [x] }
  | .andReg x _ => { regs := [x] }
  | .xorReg x _ => { regs := [x] }
  | .addReg x _ => { regs := [x, Config.flagReg] }
  | .sub x _ => { regs := [x, Config.flagReg] }
  | .shr x => { regs := [x, Config.flagReg] }
  | .subn x _ => { regs := [x, Config.flagReg] }
  | .shl x => { regs := [x, Config.flagReg] }
  | .sneReg _ _ => { pc := true }
  | .ldI _ => { addr := true }
  | .jpV0 _ => { pc := true }
  | .rnd x _ => { regs := [x], draws := true }
  | .drw _ _ _ => { regs := [Config.flagReg], display := true }
  | .skp _ => { pc := true }
  | .sknp _ => { pc := true }
  | .ldVxDt x => { regs := [x] }
  | .ldVxK x => { regs := [x], pc := true, draws := true }
  | .ldDtVx _ => { dt := true }
  | .ldStVx _ => { st := true }
  | .addI _ => { addr := true }
  | .ldF _ => { addr := true }
  | .ldB _ => { stored := 3 }
  | .stRegs x => { stored := x.val + 1 }
  | .ldRegs x => { regs := (List.finRange Config.regCount).filter (fun r => r ≤ x) }

/-! ## Terms of the statements about flags, sprites and unrecognized words -/

/-- `t` is `s` after the two writes of a flag-writing ALU instruction with destination `x` (R150): VF holds the flag, but that a
destination VF holds the result under `VF_ORDER` = `result_last`; every other element is unchanged. -/
def flaggedWrite (x : RegIx) (res flag : Nat) (s t : State) : Prop :=
  (∀ r, (t.reg r).toNat =
    if r = x ∧ (x ≠ Config.flagReg ∨ params.vfOrder = .resultLast) then res
    else if r = Config.flagReg then flag
    else (s.reg r).toNat) ∧
  { t with v := s.v } = s

/-- A set bit of the sprite that Dxyn draws in `s` reaches pixel `(r, c)` (R142, R143): bit `7 - col` of row `M[I + row]`, at row
`(Vy + row) mod 32` and column `(Vx + col) mod 64`. -/
def spriteCovers (x y : RegIx) (n : Nat) (s : State) (r : Fin Config.dispH) (c : Fin Config.dispW) : Prop :=
  ∃ row col, row < n ∧ col < Config.spriteW ∧ r.val = ((s.reg y).toNat + row) % Config.dispH ∧
    c.val = ((s.reg x).toNat + col) % Config.dispW ∧ (s.mem.read (s.i.toNat + row)).getLsbD (7 - col) = true

/-- The words of R97, (a) to (f), by their nibbles. -/
def listedUnrecognized (op : Word) : Prop :=
  let w := op.toNat
  (w / 0x1000 = 0 ∧ w ≠ 0 ∧ w ≠ 0x00E0 ∧ w ≠ 0x00EE) ∨
  (w / 0x1000 = 0x5 ∧ w % 16 ≠ 0) ∨
  (w / 0x1000 = 0x8 ∧ w % 16 ∈ [0x8, 0x9, 0xA, 0xB, 0xC, 0xD, 0xF]) ∨
  (w / 0x1000 = 0x9 ∧ w % 16 ≠ 0) ∨
  (w / 0x1000 = 0xE ∧ w % 256 ∉ [0x9E, 0xA1]) ∨
  (w / 0x1000 = 0xF ∧ w % 256 ∉ [0x07, 0x0A, 0x15, 0x18, 0x1E, 0x29, 0x33, 0x55, 0x65])

/-! ## Runs under a host -/

/-- One host operation as a transition. A fault leaves `fault` set and every other element arbitrary (R241, R242), so only the
representation of memory is known of the state after it. A refused operation has no transition. -/
def systemStep (c : HostCall) (s t : State) : Prop :=
  hostState c s = .next t ∨ ∃ (f : Fault) (any : State), hostState c s = .fault f ∧ any.mem.wf ∧ t = any.faulted f

/-- The states a machine can be in, from `new()`, under any host schedule (R256). -/
inductive Reachable : State → Prop where
  | new : Reachable State.reset
  | call (c : HostCall) (s t : State) : Reachable s → systemStep c s t → Reachable t

/-- `M[a] ++ M[a+1]`, both in memory. -/
def State.wordAt (s : State) (a : Nat) : Word := wordOfBytes (s.mem.read a) (s.mem.read (a + 1))

/-- The run is at rest at `H` (R258): `pc` = `H` and `M[H..H+1]` holds `1HHH`, a jump to itself. -/
def atRest (h : Addr12) (s : State) : Prop :=
  s.fault = none ∧ s.pc = zextAddr h ∧ h.toNat + 1 < Config.memSize ∧ s.wordAt h.toNat = encode (.jp h)

end Sys2Proof.Machine
end

