-- ==== Sys2Proof/Certificates/Slice0/Obligations.lean ====
section
/-! DEFINITION. The statements for the provers. A statement "as the rule says" covers every form of the instructions it names; "nothing
else changes" is written `{ t with … := s.… } = s`. -/

open Sys2Proof Sys2Proof.Machine

/-! ## Encoding (spec/30_encoding.md) -/

/-- R95, R96: every well-formed instruction's opcode decodes to it, as a word and as bytes. -/
def Obligations.EncodeThenDecodeGivesInstruction : Prop :=
  ∀ i : Instr, i.wellFormed = true → decodeWord (encode i) = some i ∧ decode (encodeBytes i) = .ok (i, [])

/-- R95, R98: what a word decodes to is well formed and encodes to that word, but that the ignored y nibble of 8xy6 and 8xyE is
written as 0 (the model's choice, log entry 20). -/
def Obligations.DecodeThenEncodeGivesWord : Prop :=
  ∀ (op : Word) (i : Instr), decodeWord op = some i →
    i.wellFormed = true ∧
    encode i = match i with
      | .shr _ => op &&& 0xFF0F
      | .shl _ => op &&& 0xFF0F
      | _ => op

/-- R97: exactly the listed words have no instruction, and a step that fetches one raises `UnrecognizedOpcode(op)`. -/
def Obligations.ListedWordsAreUnrecognized : Prop :=
  (∀ op : Word, decodeWord op = none ↔ listedUnrecognized op) ∧
  ∀ s : State, s.fault = none → s.pc.toNat + 1 < Config.memSize → listedUnrecognized (s.wordAt s.pc.toNat) →
    step s = .fault (.unrecognizedOpcode (s.wordAt s.pc.toNat))

/-- R95: no two rows of the opcode table match one word. -/
def Obligations.OpcodeRowsAreDisjoint : Prop :=
  ∀ (op : Word) (j k : Nat) (r q : OpcodeRow), opcodeTable[j]? = some r → opcodeTable[k]? = some q →
    r.accepts op = true → q.accepts op = true → j = k

/-- R98: all 16 values of nibble 3 of 8xy6 and of 8xyE give the same instruction. -/
def Obligations.ShiftWordsIgnoreY : Prop :=
  ∀ x y : RegIx, decodeWord (0x8006 ||| placeX x ||| placeY y) = some (.shr x) ∧
    decodeWord (0x800E ||| placeX x ||| placeY y) = some (.shl x)

/-- Words of spec/95_test_vectors.md and of the rules' examples, one or more of each family, decode as they are written there. -/
def Obligations.ExampleWordsDecode : Prop :=
  decodeWord 0x00EE = some .ret ∧ decodeWord 0x2300 = some (.call 0x300) ∧ decodeWord 0x4F01 = some (.sneByte 15 0x01) ∧
  decodeWord 0xD015 = some (.drw 0 1 5) ∧ decodeWord 0x8AF6 = some (.shr 10) ∧ decodeWord 0x8127 = some (.subn 1 2) ∧
  decodeWord 0xF329 = some (.ldF 3) ∧ decodeWord 0xF265 = some (.ldRegs 2) ∧ decodeWord 0xE1A1 = some (.sknp 1) ∧
  decodeWord 0xF30A = some (.ldVxK 3) ∧ decodeWord 0x812F = none ∧ decodeWord 0x0123 = none

/-! ## The step (spec/30_encoding.md R93, R94) -/

/-- R93: two bytes, big-endian, `pc` advanced by exactly 2, nothing else changed; and the fault where `pc + 1` is out of
memory (the spec's decision D30). -/
def Obligations.FetchReadsWordAndAdvances : Prop :=
  ∀ s : State,
    (s.pc.toNat + 1 < Config.memSize → ∃ (op : Word) (t : State), fetch s = .ok (op, t) ∧
      op.toNat = 256 * (s.mem.read s.pc.toNat).toNat + (s.mem.read (s.pc.toNat + 1)).toNat ∧
      t.pc.toNat = s.pc.toNat + 2 ∧ { t with pc := s.pc } = s) ∧
    (s.pc.toNat + 1 ≥ Config.memSize → fetch s = .error (.outOfBounds .fetch s.pc.toNat))

/-- R94: a step is fetch, decode and execute, on the state whose `pc` is advanced by 2; a faulted machine has none; a fault of the fetch
(the spec's decision D30) or of the decoder ends the step. -/
def Obligations.StepRunsDecodedInstruction : Prop :=
  ∀ s : State,
    (∀ f, s.fault = some f → step s = .refused .faultedState) ∧
    (s.fault = none →
      (s.pc.toNat + 1 ≥ Config.memSize → step s = .fault (.outOfBounds .fetch s.pc.toNat)) ∧
      (s.pc.toNat + 1 < Config.memSize →
        (decodeWord (s.wordAt s.pc.toNat) = none → step s = .fault (.unrecognizedOpcode (s.wordAt s.pc.toNat))) ∧
        ∀ i, decodeWord (s.wordAt s.pc.toNat) = some i → step s = exec i { s with pc := s.pc + 2 }))

/-- R248, R258: a machine that has not faulted is never refused a step: it executes one instruction or faults. -/
def Obligations.UnfaultedStepIsNeverRefused : Prop :=
  ∀ s : State, s.fault = none → (∃ t, step s = .next t) ∨ ∃ f, step s = .fault f

/-- R240: a step raises a fault only from the cause the table gives, with the value the table gives. It rests on the spec's decisions
D10, D12, D13, D30, D32 for what is a fault. -/
def Obligations.StepFaultsOnlyFromTheirCause : Prop :=
  ∀ (s : State) (f : Fault), step s = .fault f →
    (f = .outOfBounds .fetch s.pc.toNat ∧ s.pc.toNat + 1 ≥ Config.memSize) ∨
    (f = .unrecognizedOpcode (s.wordAt s.pc.toNat) ∧ decodeWord (s.wordAt s.pc.toNat) = none) ∨
    ∃ i, decodeWord (s.wordAt s.pc.toNat) = some i ∧
      match f with
      | .unrecognizedOpcode _ => False
      | .outOfBounds .fetch _ => False
      | .outOfBounds .stackOverflow v => v = Config.stackDepth ∧ s.sp.val = v ∧ ∃ nnn, i = .call nnn
      | .outOfBounds .stackUnderflow v => v = 0 ∧ s.sp.val = v ∧ i = .ret
      | .outOfBounds .memRead a => a ≥ Config.memSize ∧
          ((∃ x y n, i = .drw x y n ∧ s.i.toNat ≤ a ∧ a < s.i.toNat + n) ∨
            ∃ x, i = .ldRegs x ∧ s.i.toNat ≤ a ∧ a ≤ s.i.toNat + x.val)
      | .outOfBounds .memWrite a => a ≥ Config.memSize ∧ s.i.toNat ≤ a ∧
          ((∃ x, i = .ldB x ∧ a ≤ s.i.toNat + 2) ∨ ∃ x, i = .stRegs x ∧ a ≤ s.i.toNat + x.val)
      | .outOfBounds .keyIndex k => k ≥ Config.numKeys ∧ ∃ x, (i = .skp x ∨ i = .sknp x) ∧ k = (s.reg x).toNat
      | .outOfBounds .addrOverflow v => v > 0xFFFF ∧ ∃ x, i = .addI x ∧ v = s.i.toNat + (s.reg x).toNat

/-! ## Control flow (spec/40_control_flow.md) -/

/-- R120: NOP does nothing; as a step it moves `pc` by 2 and changes nothing else. -/
def Obligations.NopOnlyMovesPc : Prop :=
  ∀ s : State, exec .nop s = .next s ∧
    (s.fault = none → s.pc.toNat + 1 < Config.memSize → s.wordAt s.pc.toNat = 0x0000 → step s = .next { s with pc := s.pc + 2 })

/-- R122: the jump target is the 12-bit address, odd or even. -/
def Obligations.JumpSetsPc : Prop :=
  ∀ (nnn : Addr12) (s : State), ∃ t, exec (.jp nnn) s = .next t ∧ t.pc.toNat = nnn.toNat ∧ { t with pc := s.pc } = s

/-- R258: at rest at `H` the machine executes the jump to itself and stays as it is. What "at rest" means is the spec's decision D38. -/
def Obligations.SelfJumpStaysAtRest : Prop :=
  ∀ (h : Addr12) (s : State), atRest h s → step s = .next s

/-- R128: `pc` becomes V0 plus the address, exactly, not reduced to 12 bits (the spec's decision D15). -/
def Obligations.IndexedJumpAddsV0 : Prop :=
  ∀ (nnn : Addr12) (s : State), ∃ t, exec (.jpV0 nnn) s = .next t ∧
    t.pc.toNat = (s.reg 0).toNat + nnn.toNat ∧ { t with pc := s.pc } = s

/-- R123: a call pushes the address of the next instruction and jumps; on a full stack it raises `StackOverflow`. That the
address is the advanced `pc` is an inference the spec marks as its own, and that the check comes first its decision D31. -/
def Obligations.CallPushesReturnAddress : Prop :=
  ∀ (nnn : Addr12) (s : State),
    (s.sp.val = Config.stackDepth → exec (.call nnn) s = .fault (.outOfBounds .stackOverflow s.sp.val)) ∧
    ∀ top : Fin Config.stackDepth, s.sp.val = top.val → ∃ t, exec (.call nnn) s = .next t ∧
      t.stack[top] = s.pc ∧ (∀ j : Fin Config.stackDepth, j ≠ top → t.stack[j] = s.stack[j]) ∧
      t.sp.val = s.sp.val + 1 ∧ t.pc.toNat = nnn.toNat ∧ { t with stack := s.stack, sp := s.sp, pc := s.pc } = s

/-- R121: a return pops `pc` and leaves the slot's value (the spec's decision D19); on an empty stack it raises `StackUnderflow` (its
decision D32). -/
def Obligations.ReturnPopsPc : Prop :=
  ∀ s : State,
    (s.sp.val = 0 → exec .ret s = .fault (.outOfBounds .stackUnderflow s.sp.val)) ∧
    ∀ top : Fin Config.stackDepth, s.sp.val = top.val + 1 → ∃ t, exec .ret s = .next t ∧
      t.sp.val = top.val ∧ t.pc = s.stack[top] ∧ { t with sp := s.sp, pc := s.pc } = s

/-- R121, R123: a return right after a call comes back to the instruction after the call, with the stack pointer and every slot below it
as before. -/
def Obligations.CallThenReturnComesBack : Prop :=
  ∀ (nnn : Addr12) (s : State), s.sp.val < Config.stackDepth → ∃ t u, exec (.call nnn) s = .next t ∧ exec .ret t = .next u ∧
    u.pc = s.pc ∧ u.sp = s.sp ∧ (∀ j : Fin Config.stackDepth, j.val < s.sp.val → u.stack[j] = s.stack[j]) ∧
    { u with stack := s.stack } = s

/-- R124, R125: the byte skips move `pc` by 2 exactly when Vx equals, or does not equal, the byte. -/
def Obligations.ByteSkipsCompareRegister : Prop :=
  ∀ (x : RegIx) (kk : Byte) (s : State),
    exec (.seByte x kk) s = .next { s with pc := if s.reg x = kk then s.pc + 2 else s.pc } ∧
    exec (.sneByte x kk) s = .next { s with pc := if s.reg x = kk then s.pc else s.pc + 2 }

/-- R126, R127: the register skips move `pc` by 2 exactly when Vx equals, or does not equal, Vy. -/
def Obligations.RegisterSkipsCompareRegisters : Prop :=
  ∀ (x y : RegIx) (s : State),
    exec (.seReg x y) s = .next { s with pc := if s.reg x = s.reg y then s.pc + 2 else s.pc } ∧
    exec (.sneReg x y) s = .next { s with pc := if s.reg x = s.reg y then s.pc else s.pc + 2 }

/-- R129: a step on 3xkk moves `pc` by 4 in all when it skips and by 2 when it does not, whatever word is skipped. -/
def Obligations.SkippingStepAdvancesFour : Prop :=
  ∀ (x : RegIx) (kk : Byte) (s : State), s.fault = none → s.pc.toNat + 1 < Config.memSize →
    s.wordAt s.pc.toNat = encode (.seByte x kk) → ∃ t, step s = .next t ∧
      t.pc.toNat = s.pc.toNat + (if s.reg x = kk then 4 else 2) ∧ { t with pc := s.pc } = s

/-! ## Display (spec/41_display.md) -/

/-- R140: every pixel goes dark and nothing else changes. -/
def Obligations.ClearDarkensEveryPixel : Prop :=
  ∀ s : State, ∃ t, exec .cls s = .next t ∧ (∀ r c, pixel t.fb r c = false) ∧ { t with fb := s.fb } = s

/-- R143, R144: with the sprite in memory the draw completes: each pixel a set bit reaches toggles, the others stay; VF is 1 if a lit
pixel was reached and 0 otherwise; no other register and nothing else changes. It rests on the spec's decisions D6 (coordinates read
before VF is written) and D8 (bit order). -/
def Obligations.DrawTogglesCoveredPixels : Prop :=
  ∀ (x y : RegIx) (n : Nat) (s : State), (Instr.drw x y n).wellFormed = true → n = 0 ∨ s.i.toNat + n ≤ Config.memSize →
    ∃ t, exec (.drw x y n) s = .next t ∧
      (∀ r c, (spriteCovers x y n s r c → pixel t.fb r c = !pixel s.fb r c) ∧
        (¬ spriteCovers x y n s r c → pixel t.fb r c = pixel s.fb r c)) ∧
      ((∃ r c, spriteCovers x y n s r c ∧ pixel s.fb r c = true) → t.reg Config.flagReg = 1) ∧
      ((¬ ∃ r c, spriteCovers x y n s r c ∧ pixel s.fb r c = true) → t.reg Config.flagReg = 0) ∧
      (∀ q, q ≠ Config.flagReg → t.reg q = s.reg q) ∧ { t with fb := s.fb, v := s.v } = s

/-- R141: the first sprite row out of memory raises `MemRead` with its address (the spec's decisions D13, D35). -/
def Obligations.DrawFaultsAtFirstRowPastMemory : Prop :=
  ∀ (x y : RegIx) (n row : Nat) (s : State), row < n → s.i.toNat + row ≥ Config.memSize →
    (∀ k, k < row → s.i.toNat + k < Config.memSize) →
    exec (.drw x y n) s = .fault (.outOfBounds .memRead (s.i.toNat + row))

/-- R143 (e): drawing the same sprite twice at the same place restores the framebuffer, and if the first draw lit a pixel the second
sets VF to 1. -/
def Obligations.DrawTwiceRestoresDisplay : Prop :=
  ∀ (x y : RegIx) (n : Nat) (s t u : State), (Instr.drw x y n).wellFormed = true →
    exec (.drw x y n) s = .next t → t.reg x = s.reg x → t.reg y = s.reg y → exec (.drw x y n) t = .next u →
    u.fb = s.fb ∧ ((∃ r c, pixel s.fb r c = false ∧ pixel t.fb r c = true) → u.reg Config.flagReg = 1)

/-! ## ALU (spec/42_alu.md) -/

/-- R151, R152: the byte load, and the byte add modulo 256 with no flag; VF changes only as the destination. -/
def Obligations.ByteLoadAndAddWriteOnlyVx : Prop :=
  ∀ (x : RegIx) (kk : Byte) (s : State),
    (∃ t, exec (.ldByte x kk) s = .next t ∧ (∀ r, t.reg r = if r = x then kk else s.reg r) ∧ { t with v := s.v } = s) ∧
    ∃ t, exec (.addByte x kk) s = .next t ∧
      (∀ r, (t.reg r).toNat = if r = x then ((s.reg x).toNat + kk.toNat) % 256 else (s.reg r).toNat) ∧ { t with v := s.v } = s

/-- R153: Vx becomes Vy. -/
def Obligations.RegisterCopyWritesOnlyVx : Prop :=
  ∀ (x y : RegIx) (s : State), ∃ t, exec (.ldReg x y) s = .next t ∧
    (∀ r, t.reg r = if r = x then s.reg y else s.reg r) ∧ { t with v := s.v } = s

/-- R154, R155, R156: OR, AND and XOR, bit by bit; VF is not written unless it is the destination (the spec's decision D7). -/
def Obligations.LogicWritesOnlyVx : Prop :=
  ∀ (x y : RegIx) (s : State),
    (∃ t, exec (.orReg x y) s = .next t ∧ (∀ r, t.reg r = if r = x then s.reg x ||| s.reg y else s.reg r) ∧ { t with v := s.v } = s) ∧
    (∃ t, exec (.andReg x y) s = .next t ∧ (∀ r, t.reg r = if r = x then s.reg x &&& s.reg y else s.reg r) ∧ { t with v := s.v } = s) ∧
    ∃ t, exec (.xorReg x y) s = .next t ∧ (∀ r, t.reg r = if r = x then s.reg x ^^^ s.reg y else s.reg r) ∧ { t with v := s.v } = s

/-- R157: the sum modulo 256, and VF = 1 iff it exceeds 255, written in the order of `VF_ORDER`. -/
def Obligations.AddWritesSumAndCarry : Prop :=
  ∀ (x y : RegIx) (s : State), ∃ t, exec (.addReg x y) s = .next t ∧
    flaggedWrite x (((s.reg x).toNat + (s.reg y).toNat) % 256) (if (s.reg x).toNat + (s.reg y).toNat > 255 then 1 else 0) s t

/-- R158: the difference modulo 256, and VF = 0 iff Vx < Vy, written in the order of `VF_ORDER`. -/
def Obligations.SubWritesDifferenceAndNotBorrow : Prop :=
  ∀ (x y : RegIx) (s : State), ∃ t, exec (.sub x y) s = .next t ∧
    flaggedWrite x ((256 + (s.reg x).toNat - (s.reg y).toNat) % 256) (if (s.reg x).toNat < (s.reg y).toNat then 0 else 1) s t

/-- R160: the reverse difference modulo 256, and VF = 0 iff Vy < Vx, written in the order of `VF_ORDER`. -/
def Obligations.SubnWritesReverseDifferenceAndNotBorrow : Prop :=
  ∀ (x y : RegIx) (s : State), ∃ t, exec (.subn x y) s = .next t ∧
    flaggedWrite x ((256 + (s.reg y).toNat - (s.reg x).toNat) % 256) (if (s.reg y).toNat < (s.reg x).toNat then 0 else 1) s t

/-- R159, R161: the shifts by one bit, and VF = the bit shifted out of the old Vx, written in the order of `VF_ORDER`. -/
def Obligations.ShiftsWriteResultAndBitShiftedOut : Prop :=
  ∀ (x : RegIx) (s : State),
    (∃ t, exec (.shr x) s = .next t ∧ flaggedWrite x ((s.reg x).toNat / 2) ((s.reg x).toNat % 2) s t) ∧
    ∃ t, exec (.shl x) s = .next t ∧ flaggedWrite x (2 * (s.reg x).toNat % 256) ((s.reg x).toNat / 128) s t

/-- R150 under its default: when VF is the destination the flag is its final value, for all five instructions (the spec's decision D5). -/
def Obligations.FlagWinsWhenDestinationIsVF : Prop :=
  ∀ (y : RegIx) (s : State),
    (∃ t, exec (.addReg Config.flagReg y) s = .next t ∧
      t.reg Config.flagReg = if (s.reg Config.flagReg).toNat + (s.reg y).toNat > 255 then 1 else 0) ∧
    (∃ t, exec (.sub Config.flagReg y) s = .next t ∧
      t.reg Config.flagReg = if (s.reg Config.flagReg).toNat < (s.reg y).toNat then 0 else 1) ∧
    (∃ t, exec (.subn Config.flagReg y) s = .next t ∧
      t.reg Config.flagReg = if (s.reg y).toNat < (s.reg Config.flagReg).toNat then 0 else 1) ∧
    (∃ t, exec (.shr Config.flagReg) s = .next t ∧ t.reg Config.flagReg = s.reg Config.flagReg &&& 1) ∧
    ∃ t, exec (.shl Config.flagReg) s = .next t ∧ t.reg Config.flagReg = if 128 ≤ (s.reg Config.flagReg).toNat then 1 else 0

/-- R163: Vx becomes the drawn byte masked by KK, so it has no bit that KK lacks; VF is written only as the destination. The byte is the
model's free value, the opaque `Config.randomByte` at the counter (log entry 1), and the draw advances the counter by 1, so that the
next draw is another value (log entry 3); nothing else changes. -/
def Obligations.RandomByteIsMasked : Prop :=
  ∀ (x : RegIx) (kk : Byte) (s : State), ∃ t, exec (.rnd x kk) s = .next t ∧
    (∀ r, t.reg r = if r = x then Config.randomByte s.draws &&& kk else s.reg r) ∧ t.reg x &&& ~~~kk = 0 ∧
    t.draws = s.draws + 1 ∧ { t with v := s.v, draws := s.draws } = s

/-! ## Address register and memory (spec/43_index_memory.md) -/

/-- R180: `I` becomes the 12-bit address. -/
def Obligations.LoadAddressSetsI : Prop :=
  ∀ (nnn : Addr12) (s : State), ∃ t, exec (.ldI nnn) s = .next t ∧ t.i.toNat = nnn.toNat ∧ { t with i := s.i } = s

/-- R181: `I` becomes the exact sum where it fits 16 bits, with no flag; past 16 bits the instruction faults or wraps as
`I_OVERFLOW` says. -/
def Obligations.AddAddressIsExactOrOverflows : Prop :=
  ∀ (x : RegIx) (s : State),
    (s.i.toNat + (s.reg x).toNat ≤ 0xFFFF → ∃ t, exec (.addI x) s = .next t ∧
      t.i.toNat = s.i.toNat + (s.reg x).toNat ∧ { t with i := s.i } = s) ∧
    (s.i.toNat + (s.reg x).toNat > 0xFFFF → exec (.addI x) s =
      match params.iOverflow with
      | .fault => .fault (.outOfBounds .addrOverflow (s.i.toNat + (s.reg x).toNat))
      | .wrap => .next { s with i := BitVec.ofNat Config.iWidth (s.i.toNat + (s.reg x).toNat) })

/-- R181 under its default `I_OVERFLOW` = `fault`: a sum past 16 bits raises `AddrOverflow` with the sum (the spec's decision D12). -/
def Obligations.AddressOverflowFaults : Prop :=
  ∀ (x : RegIx) (s : State), s.i.toNat + (s.reg x).toNat > 0xFFFF →
    exec (.addI x) s = .fault (.outOfBounds .addrOverflow (s.i.toNat + (s.reg x).toNat))

/-- R182: `I` becomes `FONT_BASE` plus five times the whole value of Vx (the spec's decision D9). -/
def Obligations.LoadGlyphAddressSetsI : Prop :=
  ∀ (x : RegIx) (s : State), ∃ t, exec (.ldF x) s = .next t ∧
    t.i.toNat = Config.fontBase + 5 * (s.reg x).toNat ∧ { t with i := s.i } = s

/-- R183: the three decimal digits of Vx are stored at `I`, `I + 1`, `I + 2`, every other byte and everything else stays; the first of
the three addresses that is out of memory raises `MemWrite` (the spec's decision D13). -/
def Obligations.DecimalStoreWritesThreeDigits : Prop :=
  ∀ (x : RegIx) (s : State),
    (s.effAddr 2 < Config.memSize → ∃ t, exec (.ldB x) s = .next t ∧
      (t.mem.read (s.effAddr 0)).toNat = (s.reg x).toNat / 100 ∧
      (t.mem.read (s.effAddr 1)).toNat = (s.reg x).toNat / 10 % 10 ∧
      (t.mem.read (s.effAddr 2)).toNat = (s.reg x).toNat % 10 ∧
      (∀ a, a < s.effAddr 0 ∨ s.effAddr 2 < a → t.mem.read a = s.mem.read a) ∧ { t with mem := s.mem } = s) ∧
    ∀ k, k ≤ 2 → s.effAddr k ≥ Config.memSize → (∀ j, j < k → s.effAddr j < Config.memSize) →
      exec (.ldB x) s = .fault (.outOfBounds .memWrite (s.effAddr k))

/-- R184: V0 to Vx are stored from `I` upwards, every other byte and everything else stays, `I` included (the spec's decision D14); the
first address out of memory raises `MemWrite` (D13). -/
def Obligations.RegisterStoreWritesV0ToVx : Prop :=
  ∀ (x : RegIx) (s : State),
    (s.effAddr x.val < Config.memSize → ∃ t, exec (.stRegs x) s = .next t ∧
      (∀ k : RegIx, k ≤ x → t.mem.read (s.effAddr k.val) = s.reg k) ∧
      (∀ a, a < s.effAddr 0 ∨ s.effAddr x.val < a → t.mem.read a = s.mem.read a) ∧ { t with mem := s.mem } = s) ∧
    ∀ k, k ≤ x.val → s.effAddr k ≥ Config.memSize → (∀ j, j < k → s.effAddr j < Config.memSize) →
      exec (.stRegs x) s = .fault (.outOfBounds .memWrite (s.effAddr k))

/-- R185: V0 to Vx are loaded from `I` upwards, the registers above Vx and everything else stay, `I` included (the spec's decision D14);
the first address out of memory raises `MemRead` (D13). -/
def Obligations.RegisterLoadReadsV0ToVx : Prop :=
  ∀ (x : RegIx) (s : State),
    (s.effAddr x.val < Config.memSize → ∃ t, exec (.ldRegs x) s = .next t ∧
      (∀ k : RegIx, t.reg k = if k ≤ x then s.mem.read (s.effAddr k.val) else s.reg k) ∧ { t with v := s.v } = s) ∧
    ∀ k, k ≤ x.val → s.effAddr k ≥ Config.memSize → (∀ j, j < k → s.effAddr j < Config.memSize) →
      exec (.ldRegs x) s = .fault (.outOfBounds .memRead (s.effAddr k))

/-- R184, R185: registers stored and later loaded back through the same `I`, with memory unchanged in between, are the same. -/
def Obligations.StoredRegistersLoadBack : Prop :=
  ∀ (x : RegIx) (s t u : State), exec (.stRegs x) s = .next t → u.mem = t.mem → u.i = s.i →
    ∃ w, exec (.ldRegs x) u = .next w ∧ ∀ k : RegIx, k ≤ x → w.reg k = s.reg k

/-- R71: two registers stored next to each other are the word that the next fetch at their address reads (an inference the spec marks as
its own). -/
def Obligations.StoredCodeIsFetched : Prop :=
  ∀ (x j k : RegIx) (s t u : State), exec (.stRegs x) s = .next t → k.val = j.val + 1 → k ≤ x →
    u.mem = t.mem → u.pc.toNat = s.effAddr j.val →
    ∃ (op : Word) (w : State), fetch u = .ok (op, w) ∧ highByte op = s.reg j ∧ lowByte op = s.reg k

/-! ## Keypad and timers (spec/44_keypad_timers.md) -/

/-- R200, R201: with Vx a key's number the key skips move `pc` by 2 exactly when that key is, or is not, pressed; with Vx past the keypad
they raise `KeyIndex` (the spec's decision D10). -/
def Obligations.KeySkipsReadTheKey : Prop :=
  ∀ (x : RegIx) (s : State),
    (∀ k : KeyIx, (s.reg x).toNat = k.val →
      exec (.skp x) s = .next { s with pc := if s.key[k] = true then s.pc + 2 else s.pc } ∧
      exec (.sknp x) s = .next { s with pc := if s.key[k] = true then s.pc else s.pc + 2 }) ∧
    ((s.reg x).toNat ≥ Config.numKeys →
      exec (.skp x) s = .fault (.outOfBounds .keyIndex (s.reg x).toNat) ∧
      exec (.sknp x) s = .fault (.outOfBounds .keyIndex (s.reg x).toNat))

/-- R203: with no key pressed the wait rewinds `pc` by 2; else Vx receives the number of a pressed key and nothing else changes. Which
key it is is the model's free value (the spec's decision D11): the member of the pressed set that `pickKey` takes by `KEY_PICK` and the
opaque `Config.keyChoice` at the counter (log entry 2), which the choice advances by 1 (log entry 3). For every set of pressed keys,
`any_pressed` gives each of them for some free value, and `lowest` gives the smallest for every free value. -/
def Obligations.KeyWaitRewindsOrReportsKey : Prop :=
  ∀ (x : RegIx) (s : State),
    ((∀ k : KeyIx, s.key[k] = false) → exec (.ldVxK x) s = .next { s with pc := s.pc - 2 }) ∧
    ((∃ k : KeyIx, s.key[k] = true) → ∃ (k : KeyIx) (t : State),
      pickKey params.keyPick (Config.keyChoice s.draws) s.pressed = some k ∧ s.key[k] = true ∧
      exec (.ldVxK x) s = .next t ∧ (∀ r, (t.reg r).toNat = if r = x then k.val else (s.reg r).toNat) ∧
      t.draws = s.draws + 1 ∧ { t with v := s.v, draws := s.draws } = s) ∧
    (∀ k : KeyIx, s.key[k] = true → ∃ free, pickKey .anyPressed free s.pressed = some k) ∧
    ∀ (free : Nat) (k : KeyIx), pickKey .lowest free s.pressed = some k → s.key[k] = true ∧ ∀ j : KeyIx, j < k → s.key[j] = false

/-- R203 (c): a step on Fx0A with no key pressed leaves the machine exactly as it was. -/
def Obligations.KeyWaitStepIsIdle : Prop :=
  ∀ (x : RegIx) (s : State), s.fault = none → s.pc.toNat + 1 < Config.memSize →
    s.wordAt s.pc.toNat = encode (.ldVxK x) → (∀ k : KeyIx, s.key[k] = false) → step s = .next s

/-- R202, R204, R205: Vx receives the delay timer; the timers receive Vx; and `should_play_sound` is true after Fx18 exactly when Vx
is 1. -/
def Obligations.TimerTransfersCopyBytes : Prop :=
  ∀ (x : RegIx) (s : State),
    (∃ t, exec (.ldVxDt x) s = .next t ∧ (∀ r, t.reg r = if r = x then s.dt else s.reg r) ∧ { t with v := s.v } = s) ∧
    exec (.ldDtVx x) s = .next { s with dt := s.reg x } ∧
    ∃ t, exec (.ldStVx x) s = .next t ∧ t = { s with st := s.reg x } ∧
      (s.fault = none → (soundView t = true ↔ (s.reg x).toNat = 1))

/-! ## Frames over all instructions -/

/-- R22: an instruction that completes writes no general register but those of its footprint, VF as the flag included. -/
def Obligations.InstructionsWriteOnlyTheirRegisters : Prop :=
  ∀ (i : Instr) (s t : State), exec i s = .next t → ∀ r : RegIx, r ∉ (footprint i).regs → t.reg r = s.reg r

/-- R60: an instruction that completes changes no byte of memory but Fx33 the three and Fx55 the `x + 1` from the address in `I` upwards;
an instruction that stores nothing changes none. -/
def Obligations.InstructionsStoreOnlyTheirBytes : Prop :=
  ∀ (i : Instr) (s t : State), exec i s = .next t →
    ∀ a, ¬ (s.effAddr 0 ≤ a ∧ a < s.effAddr 0 + (footprint i).stored) → t.mem.read a = s.mem.read a

/-- R24, R26, R27, R28, R29, R30, R35: an instruction that completes writes `pc` (beyond the fetch), `I`, the stack, the timers and the
framebuffer only where its footprint says so, and never the keypad or `fault`. That Fx55 and Fx65 keep `I` is the spec's decision D14,
and that `fault` is an element its decision D3; the last clause, on the counter `draws`, is about the model's own field, not the spec's
(DESIGN CHOICE, log entry 3). -/
def Obligations.InstructionsKeepOtherElements : Prop :=
  ∀ (i : Instr) (s t : State), exec i s = .next t →
    ((footprint i).pc = false → t.pc = s.pc) ∧ ((footprint i).addr = false → t.i = s.i) ∧
    ((footprint i).slots = false → t.stack = s.stack) ∧ ((footprint i).sp = false → t.sp = s.sp) ∧
    ((footprint i).display = false → t.fb = s.fb) ∧ ((footprint i).dt = false → t.dt = s.dt) ∧
    ((footprint i).st = false → t.st = s.st) ∧ t.key = s.key ∧ t.fault = s.fault ∧
    ((footprint i).draws = false → t.draws = s.draws)

/-! ## Invariants -/

/-- The invariant holds after reset. R38 gives `pc` and the slots, R25, R121 and R123 the bounds; that memory is canonical is about the
model's own representation of it, not the spec's (DESIGN CHOICE, log entry 18). -/
def Obligations.ResetMeetsInvariant : Prop := State.reset.inv

/-- From every state that meets the invariant a step that completes gives one that meets it, and leaves the machine unfaulted. `pc` stays
at most 0x10FE (an inference R25 marks as its own), and every slot at most `MEM_SIZE`, since a call pushes the `pc` that its fetch
advanced and a return changes no slot (what follows from R93, R121 and R123). That memory stays canonical is about the
model's own representation of it, not the spec's (DESIGN CHOICE, log entry 18). -/
def Obligations.StepKeepsInvariant : Prop :=
  ∀ s t : State, s.inv → step s = .next t → t.inv ∧ t.fault = none

/-- Every host operation, a faulting one included, keeps the system invariant, so it holds in every state a machine can be in under any
host schedule (R256). Of an unfaulted machine it says what `State.inv` says: `pc` at most 0x10FE (R25) and every slot at most `MEM_SIZE`
(R93, R121, R123); of a faulted one nothing of the spec's elements (R241, R242, the spec's decision D4). That memory is canonical is
about the model's own representation, not the spec's (DESIGN CHOICE, log entry 18), and so is the premise that it is canonical in the
arbitrary state after a fault (DESIGN CHOICE, log entry 4). -/
def Obligations.ReachableStatesMeetSystemInvariant : Prop :=
  (∀ (c : HostCall) (s t : State), s.sysInv → systemStep c s t → t.sysInv) ∧ ∀ s : State, Reachable s → s.sysInv

/-! ## Reset and the host interface (spec/60_exceptions.md, spec/70_reset_and_hazards.md) -/

/-- R38: the value of every element after `new()`. The zeroes of `I`, the timers and the keypad are the spec's decision D16. The glyph
bytes are those of the table of R33, which the spec gives from general knowledge (its decision D18, log entry 5): the parameter `FONT`
holds them, `FONT_LEN` of them, and memory holds them from `FONT_BASE` on. -/
def Obligations.ResetStateIsAsListed : Prop :=
  State.reset.pc.toNat = Config.loadAddr ∧
  params.font =
    [0xF0, 0x90, 0x90, 0x90, 0xF0, 0x20, 0x60, 0x20, 0x20, 0x70, 0xF0, 0x10, 0xF0, 0x80, 0xF0, 0xF0, 0x10, 0xF0, 0x10, 0xF0] ++
    [0x90, 0x90, 0xF0, 0x10, 0x10, 0xF0, 0x80, 0xF0, 0x10, 0xF0, 0xF0, 0x80, 0xF0, 0x90, 0xF0, 0xF0, 0x10, 0x20, 0x40, 0x40] ++
    [0xF0, 0x90, 0xF0, 0x90, 0xF0, 0xF0, 0x90, 0xF0, 0x10, 0xF0, 0xF0, 0x90, 0xF0, 0x90, 0x90, 0xE0, 0x90, 0xE0, 0x90, 0xE0] ++
    [0xF0, 0x80, 0x80, 0x80, 0xF0, 0xE0, 0x90, 0x90, 0x90, 0xE0, 0xF0, 0x80, 0xF0, 0x80, 0xF0, 0xF0, 0x80, 0xF0, 0x80, 0x80] ∧
  params.font.length = Config.fontLen ∧
  (∀ k (h : k < params.font.length), State.reset.mem.read (Config.fontBase + k) = params.font[k]) ∧
  (∀ a, Config.fontBase + Config.fontLen ≤ a → a < Config.memSize → State.reset.mem.read a = 0) ∧
  (∀ r : RegIx, State.reset.reg r = 0) ∧ State.reset.i = 0 ∧ State.reset.sp = 0 ∧
  (∀ j : Fin Config.stackDepth, State.reset.stack[j] = 0) ∧ (∀ r c, pixel State.reset.fb r c = false) ∧
  State.reset.dt = 0 ∧ State.reset.st = 0 ∧ (∀ k : KeyIx, State.reset.key[k] = false) ∧ State.reset.fault = none

/-- R280, R281: `reset()` from any state, a faulted one included, gives the state of `new()` in every element of the spec's; the model's
own counter of free values runs on unchanged (DESIGN CHOICE, log entry 3). -/
def Obligations.ResetIsFreshInstance : Prop :=
  ∀ s : State, ∃ t, hostCall .reset s = .next (t, .none) ∧ t.draws = s.draws ∧ { t with draws := State.reset.draws } = State.reset

/-- R250: a timer tick counts both timers down by 1 with a floor at 0, and changes nothing else. -/
def Obligations.TimerTickCountsDownToZero : Prop :=
  ∀ s : State, s.fault = none → ∃ t, hostCall .tickTimers s = .next (t, .none) ∧
    t.dt.toNat = s.dt.toNat - 1 ∧ t.st.toNat = s.st.toNat - 1 ∧ { t with dt := s.dt, st := s.st } = s

/-- R251, R253: the queries answer `ST = 1` and the framebuffer, and change nothing. -/
def Obligations.QueriesAnswerAndChangeNothing : Prop :=
  ∀ s : State, s.fault = none →
    hostCall .shouldPlaySound s = .next (s, .sound (decide (s.st.toNat = 1))) ∧ hostCall .getDisplay s = .next (s, .display s.fb)

/-- R252: a key event sets one key and nothing else; an index past the keypad raises `KeyIndex` (the spec's decision D21). -/
def Obligations.KeypressSetsOneKey : Prop :=
  ∀ (s : State) (p : Bool), s.fault = none →
    (∀ k : KeyIx, ∃ t, hostCall (.keypress k.val p) s = .next (t, .none) ∧
      (∀ j : KeyIx, t.key[j] = if j = k then p else s.key[j]) ∧ { t with key := s.key } = s) ∧
    ∀ index, index ≥ Config.numKeys → hostCall (.keypress index p) s = .fault (.outOfBounds .keyIndex index)

/-- R254: an image that fits is copied to 0x200 upwards, every other byte and everything else stays; a longer one raises `MemWrite` with
the address of its last byte (the spec's decision D22). -/
def Obligations.LoadCopiesImage : Prop :=
  ∀ (data : List Byte) (s : State), s.fault = none →
    (data.length ≤ Config.maxImage → ∃ t, hostCall (.load data) s = .next (t, .none) ∧
      (∀ k (h : k < data.length), t.mem.read (Config.loadAddr + k) = data[k]) ∧
      (∀ a, a < Config.loadAddr ∨ Config.loadAddr + data.length ≤ a → t.mem.read a = s.mem.read a) ∧ { t with mem := s.mem } = s) ∧
    (data.length > Config.maxImage →
      hostCall (.load data) s = .fault (.outOfBounds .memWrite (Config.loadAddr + data.length - 1)))

/-- R241: a faulted machine refuses `tick`, `tick_timers`, `keypress` and `load`; a query answers and leaves every
element of the spec's as it was, so the machine faulted; only `reset` leaves the faulted state (the spec's decision D20). What a query
answers is the model's free value, opaque at the counter (log entry 4), which the query advances by 1 (log entry 3). -/
def Obligations.FaultedMachineOnlyResets : Prop :=
  ∀ (s : State) (f : Fault), s.fault = some f →
    (∀ c, (c = .tick ∨ c = .tickTimers ∨ (∃ k p, c = .keypress k p) ∨ ∃ data, c = .load data) →
      hostCall c s = .refused .faultedState) ∧
    (∃ t, hostCall .getDisplay s = .next (t, .display (Config.faultedDisplay s.draws)) ∧
      hostCall .shouldPlaySound s = .next (t, .sound (Config.faultedSound s.draws)) ∧
      t.draws = s.draws + 1 ∧ { t with draws := s.draws } = s) ∧
    ∀ c t, systemStep c s t → t.fault = none → c = .reset
end

