-- ==== Sys2Proof/Laws/Config.lean ====
section
/-! SUPPORT. The sizes as numbers, and the bounds of the value types that rest on them, for `omega`, which does not look through a size's
name. -/

namespace Sys2Proof

theorem Config.regCount_eq : Config.regCount = 16 := rfl
theorem Config.flagReg_eq : Config.flagReg = 15 := rfl
theorem Config.memSize_eq : Config.memSize = 4096 := rfl
theorem Config.loadAddr_eq : Config.loadAddr = 0x200 := rfl
theorem Config.maxImage_eq : Config.maxImage = 3584 := rfl
theorem Config.stackDepth_eq : Config.stackDepth = 16 := rfl
theorem Config.numKeys_eq : Config.numKeys = 16 := rfl

theorem toNat_regVal_lt (b : RegVal) : b.toNat < 256 := b.isLt
theorem toNat_pcVal_lt (a : PcVal) : a.toNat < 65536 := a.isLt
theorem toNat_addrVal_lt (a : AddrVal) : a.toNat < 65536 := a.isLt
theorem toNat_timerVal_lt (b : TimerVal) : b.toNat < 256 := b.isLt

end Sys2Proof
end

