-- ==== Sys2Proof/Laws/Decode.lean ====
section
/-! SUPPORT. The places of the fields in an opcode, the disjointness of the opcode table's rows, and what follows for the decoder. -/

namespace Sys2Proof

/-! ## A field is read from its own place, and from no other -/

theorem fieldX_placeX (x : RegIx) : fieldX (placeX x) = x := by revert x; decide

theorem fieldY_placeY (y : RegIx) : fieldY (placeY y) = y := by revert y; decide

theorem placeX_mask (x : RegIx) : placeX x &&& 0x0F00 = placeX x := by revert x; decide

theorem placeY_mask (y : RegIx) : placeY y &&& 0x00F0 = placeY y := by revert y; decide

theorem placeN_mask (n : Nat) : placeN n &&& 0x000F = placeN n := by
  unfold placeN
  generalize BitVec.ofNat 4 n = m
  revert m; decide

theorem placeKK_mask (kk : Byte) : placeKK kk &&& 0x00FF = placeKK kk := by
  refine BitVec.eq_of_getLsbD_eq fun j hj => ?_
  interval_cases j <;> simp [placeKK]

theorem placeNNN_mask (nnn : Addr12) : placeNNN nnn &&& 0x0FFF = placeNNN nnn := by
  refine BitVec.eq_of_getLsbD_eq fun j hj => ?_
  interval_cases j <;> simp [placeNNN]

/-! ## The table's rows are disjoint (R95) -/

/-- Any two rows differ in a bit that both of them fix. -/
theorem opcodeTable_pairwise :
    opcodeTable.Pairwise (fun a b => a.pattern &&& b.mask ≠ b.pattern &&& a.mask) := by decide

/-- Two rows that both accept a word agree on the bits both fix. -/
theorem OpcodeRow.agree_of_accepts {a b : OpcodeRow} {op : Word} (ha : a.accepts op = true) (hb : b.accepts op = true) :
    a.pattern &&& b.mask = b.pattern &&& a.mask := by
  simp only [OpcodeRow.accepts, decide_eq_true_eq] at ha hb
  rw [← ha, ← hb, BitVec.and_assoc, BitVec.and_assoc, BitVec.and_comm a.mask]

/-- In a list of disjoint rows, the row that accepts a word is the one `find?` answers. -/
theorem find?_of_accepts {rows : List OpcodeRow} {op : Word} {r : OpcodeRow}
    (hp : rows.Pairwise (fun a b => a.pattern &&& b.mask ≠ b.pattern &&& a.mask)) (hr : r ∈ rows) (ha : r.accepts op = true) :
    rows.find? (fun q => q.accepts op) = some r := by
  induction rows with
  | nil => simp at hr
  | cons q rows ih =>
    obtain ⟨hq, hp⟩ := List.pairwise_cons.mp hp
    by_cases hacc : q.accepts op = true
    · rcases List.mem_cons.mp hr with rfl | hmem
      · simp [ha]
      · exact absurd (OpcodeRow.agree_of_accepts hacc ha) (hq r hmem)
    · rcases List.mem_cons.mp hr with rfl | hmem
      · exact absurd ha hacc
      · simpa [List.find?_cons, hacc] using ih hp hmem

/-- A word decodes to what the row that accepts it builds, whichever row that is. -/
theorem decodeWord_of_accepts {op : Word} {r : OpcodeRow} (hr : r ∈ opcodeTable) (ha : r.accepts op = true) :
    decodeWord op = some (r.build op) := by
  rw [decodeWord, find?_of_accepts opcodeTable_pairwise hr ha]; rfl

/-- A word is unrecognized iff no row accepts it (R95, R96). -/
theorem decodeWord_eq_none {op : Word} : decodeWord op = none ↔ ∀ r ∈ opcodeTable, r.accepts op = false := by
  simp [decodeWord]

/-- What the decoder answers, one row of the table accepts. -/
theorem accepts_of_decodeWord {op : Word} {i : Instr} (h : decodeWord op = some i) :
    ∃ r ∈ opcodeTable, r.accepts op = true ∧ i = r.build op := by
  obtain ⟨r, hr, hb⟩ := Option.map_eq_some_iff.mp h
  exact ⟨r, List.mem_of_find?_eq_some hr, by simpa using List.find?_some hr, hb.symm⟩

/-! ## Bytes -/

/-- The value of a fetched word: its first byte counts 256 (R62). -/
theorem toNat_wordOfBytes (hi lo : Byte) : (wordOfBytes hi lo).toNat = 256 * hi.toNat + lo.toNat := by
  have := lo.isLt
  have h : (wordOfBytes hi lo).toNat = hi.toNat <<< 8 ||| lo.toNat := BitVec.toNat_append hi lo
  rw [h, ← Nat.shiftLeft_add_eq_or_of_lt lo.isLt, Nat.shiftLeft_eq]
  omega

theorem toNat_highByte (op : Word) : (highByte op).toNat = op.toNat / 256 := by
  have := op.isLt
  simp [highByte, BitVec.extractLsb'_toNat, Nat.shiftRight_eq_div_pow]
  omega

theorem toNat_lowByte (op : Word) : (lowByte op).toNat = op.toNat % 256 := by
  simp [lowByte, BitVec.extractLsb'_toNat]

/-- Splitting a word into its two bytes and combining them gives it back (R62). -/
@[simp] theorem wordOfBytes_bytes (op : Word) : wordOfBytes (highByte op) (lowByte op) = op := by
  apply BitVec.eq_of_toNat_eq
  rw [toNat_wordOfBytes, toNat_highByte, toNat_lowByte]
  omega

@[simp] theorem highByte_wordOfBytes (hi lo : Byte) : highByte (wordOfBytes hi lo) = hi := by
  apply BitVec.eq_of_toNat_eq
  have := lo.isLt
  rw [toNat_highByte, toNat_wordOfBytes]
  omega

@[simp] theorem lowByte_wordOfBytes (hi lo : Byte) : lowByte (wordOfBytes hi lo) = lo := by
  apply BitVec.eq_of_toNat_eq
  have := lo.isLt
  rw [toNat_lowByte, toNat_wordOfBytes]
  omega

/-- The decoder on the bytes of a word is the decoder on the word. -/
theorem decode_bytesOfWord (op : Word) :
    decode (bytesOfWord op) =
      match decodeWord op with
      | some i => .ok (i, [])
      | none => .error (.unrecognizedOpcode op) := by
  cases h : decodeWord op <;> simp only [bytesOfWord, decode, wordOfBytes_bytes, h]

end Sys2Proof
end

