-- ==== Sys2Proof/Laws/Display.lean ====
section
/-! SUPPORT. What the sprite engine does to one pixel, and when it reports a collision. -/

namespace Sys2Proof.Machine

/-- A pixel after a flip. -/
theorem pixel_flipPixel (fb : Framebuffer) (q r : Fin Config.dispH) (p c : Fin Config.dispW) :
    pixel (flipPixel fb r c) q p = if q = r ∧ p = c then !pixel fb q p else pixel fb q p := by
  by_cases hr : q = r
  · subst hr
    by_cases hc : p = c
    · subst hc
      simp [pixel, flipPixel]
    · have : ¬ c.val = p.val := fun h => hc (Fin.ext h.symm)
      simp [pixel, flipPixel, hc, this]
  · have : ¬ r.val = q.val := fun h => hr (Fin.ext h.symm)
    simp [pixel, flipPixel, hr, this]

@[simp] theorem pixel_darkScreen (r : Fin Config.dispH) (c : Fin Config.dispW) : pixel darkScreen r c = false := by
  simp [pixel, darkScreen]

/-- Framebuffers with equal pixels are equal. -/
theorem framebuffer_ext {f g : Framebuffer} (h : ∀ r c, pixel f r c = pixel g r c) : f = g := by
  refine Vector.ext fun i hi => Vector.ext fun j hj => ?_
  exact h ⟨i, hi⟩ ⟨j, hj⟩

theorem wrapCol_inj {cx a b : Nat} (ha : a < Config.dispW) (hb : b < Config.dispW) (h : wrapCol cx a = wrapCol cx b) : a = b := by
  have := congrArg Fin.val h
  simp [wrapCol, Fin.ofNat] at this ha hb
  omega

theorem wrapRow_inj {cy a b : Nat} (ha : a < Config.dispH) (hb : b < Config.dispH) (h : wrapRow cy a = wrapRow cy b) : a = b := by
  have := congrArg Fin.val h
  simp [wrapRow, Fin.ofNat] at this ha hb
  omega

/-- The columns of one sprite row: a pixel of the row toggles iff a set bit reaches it, for columns that reach distinct pixels. -/
theorem pixel_drawColumns (b : Byte) (r : Fin Config.dispH) (cx : Nat) (cols : List Nat) (d : Drawing)
    (hc : cols.Nodup) (hlt : ∀ col ∈ cols, col < Config.dispW) (q : Fin Config.dispH) (p : Fin Config.dispW) :
    pixel (drawColumns b r cx cols d).1 q p =
      (pixel d.1 q p ^^ decide (q = r ∧ ∃ col ∈ cols, wrapCol cx col = p ∧ spriteBit b col = true)) := by
  induction cols generalizing d with
  | nil => simp [drawColumns]
  | cons col cols ih =>
    obtain ⟨hnot, hnd⟩ := List.nodup_cons.mp hc
    rw [drawColumns, ih _ hnd (fun k hk => hlt k (by simp [hk]))]
    by_cases hbit : spriteBit b col = true
    · rw [if_pos hbit, xorPixel, pixel_flipPixel]
      by_cases hq : q = r ∧ p = wrapCol cx col
      · obtain ⟨rfl, rfl⟩ := hq
        have none : ¬ ∃ k ∈ cols, wrapCol cx k = wrapCol cx col ∧ spriteBit b k = true := by
          rintro ⟨k, hk, he, -⟩
          exact hnot (wrapCol_inj (hlt k (by simp [hk])) (hlt col (by simp)) he ▸ hk)
        simp [none, hbit]
      · rw [if_neg hq]
        congr 2
        by_cases hqr : q = r
        · have : ¬ wrapCol cx col = p := fun e => hq ⟨hqr, e.symm⟩
          simp [this]
        · simp [hqr]
    · simp [hbit]

/-- One sprite row collides iff a set bit reaches a lit pixel (R144). -/
theorem collision_drawColumns (b : Byte) (r : Fin Config.dispH) (cx : Nat) (cols : List Nat) (d : Drawing)
    (hc : cols.Nodup) (hlt : ∀ col ∈ cols, col < Config.dispW) :
    (drawColumns b r cx cols d).2 =
      (d.2 || decide (∃ col ∈ cols, spriteBit b col = true ∧ pixel d.1 r (wrapCol cx col) = true)) := by
  induction cols generalizing d with
  | nil => simp [drawColumns]
  | cons col cols ih =>
    obtain ⟨hnot, hnd⟩ := List.nodup_cons.mp hc
    have hother : ∀ k ∈ cols, wrapCol cx k ≠ wrapCol cx col := fun k hk e =>
      hnot (wrapCol_inj (hlt k (by simp [hk])) (hlt col (by simp)) e ▸ hk)
    rw [drawColumns, ih _ hnd (fun k hk => hlt k (by simp [hk]))]
    by_cases hbit : spriteBit b col = true
    · rw [if_pos hbit]
      have same : (∃ k ∈ cols, spriteBit b k = true ∧ pixel (flipPixel d.1 r (wrapCol cx col)) r (wrapCol cx k) = true) ↔
          ∃ k ∈ cols, spriteBit b k = true ∧ pixel d.1 r (wrapCol cx k) = true := by
        refine exists_congr fun k => and_congr_right fun hk => ?_
        rw [pixel_flipPixel, if_neg (by simp [hother k hk])]
      simp only [xorPixel, same, Bool.or_assoc, List.exists_mem_cons_iff, hbit, true_and, Bool.decide_or, Bool.decide_eq_true]
    · simp [hbit]

/-- A set bit of the sprite, whose rows start at offset `row`, reaches pixel `(q, p)`. -/
def hitFrom (cx cy row : Nat) (bs : List Byte) (q : Fin Config.dispH) (p : Fin Config.dispW) : Prop :=
  ∃ k < bs.length, ∃ col < Config.spriteW, wrapRow cy (row + k) = q ∧ wrapCol cx col = p ∧ spriteBit (bs.getD k 0) col = true

theorem hitFrom_cons (cx cy row : Nat) (b : Byte) (bs : List Byte) (q : Fin Config.dispH) (p : Fin Config.dispW) :
    hitFrom cx cy row (b :: bs) q p ↔
      (q = wrapRow cy row ∧ ∃ col ∈ List.range Config.spriteW, wrapCol cx col = p ∧ spriteBit b col = true) ∨
        hitFrom cx cy (row + 1) bs q p := by
  constructor
  · rintro ⟨k, hk, col, hcol, hr, hc, hb⟩
    cases k with
    | zero => exact .inl ⟨by simpa using hr.symm, col, by simpa using hcol, hc, by simpa using hb⟩
    | succ k =>
      exact .inr ⟨k, by simpa using hk, col, hcol, by rw [← hr]; congr 1; omega, hc, by simpa using hb⟩
  · rintro (⟨hr, col, hcol, hc, hb⟩ | ⟨k, hk, col, hcol, hr, hc, hb⟩)
    · exact ⟨0, by simp, col, by simpa using hcol, by simpa using hr.symm, hc, by simpa using hb⟩
    · exact ⟨k + 1, by simpa using hk, col, hcol, by rw [← hr]; congr 1; omega, hc, by simpa using hb⟩

theorem hitFrom_row {cx cy row : Nat} {bs : List Byte} {q : Fin Config.dispH} {p : Fin Config.dispW}
    (h : hitFrom cx cy (row + 1) bs q p) (hl : row + 1 + bs.length ≤ Config.dispH) : q ≠ wrapRow cy row := by
  obtain ⟨k, hk, -, -, hr, -, -⟩ := h
  rintro rfl
  have := wrapRow_inj (by omega) (by omega) hr
  omega

open Classical in
/-- A whole sprite of at most 32 rows: a pixel toggles iff a set bit reaches it (R143). -/
theorem pixel_drawRows (bs : List Byte) (cx cy row : Nat) (d : Drawing) (hl : row + bs.length ≤ Config.dispH)
    (q : Fin Config.dispH) (p : Fin Config.dispW) :
    pixel (drawRows cx cy row bs d).1 q p = (pixel d.1 q p ^^ decide (hitFrom cx cy row bs q p)) := by
  induction bs generalizing row d with
  | nil => simp [drawRows, hitFrom]
  | cons b bs ih =>
    rw [List.length_cons] at hl
    rw [drawRows, ih (row + 1) _ (by omega), pixel_drawColumns _ _ _ _ _ List.nodup_range (by simp; omega)]
    by_cases hh : hitFrom cx cy (row + 1) bs q p
    · have hq := hitFrom_row hh (by omega)
      simp [hitFrom_cons, hh, hq]
    · simp [hitFrom_cons, hh]

open Classical in
/-- A whole sprite of at most 32 rows collides iff a set bit reaches a pixel that was lit before the draw (R143, R144). -/
theorem collision_drawRows (bs : List Byte) (cx cy row : Nat) (d : Drawing) (hl : row + bs.length ≤ Config.dispH) :
    (drawRows cx cy row bs d).2 = (d.2 || decide (∃ q p, hitFrom cx cy row bs q p ∧ pixel d.1 q p = true)) := by
  induction bs generalizing row d with
  | nil => simp [drawRows, hitFrom]
  | cons b bs ih =>
    rw [List.length_cons] at hl
    have hcols : ∀ col ∈ List.range Config.spriteW, col < Config.dispW := by simp; omega
    rw [drawRows, ih (row + 1) _ (by omega), collision_drawColumns _ _ _ _ _ List.nodup_range hcols, Bool.or_assoc]
    have later : (∃ q p, hitFrom cx cy (row + 1) bs q p ∧
          pixel (drawColumns b (wrapRow cy row) cx (List.range Config.spriteW) d).1 q p = true) ↔
        ∃ q p, hitFrom cx cy (row + 1) bs q p ∧ pixel d.1 q p = true := by
      refine exists_congr fun q => exists_congr fun p => and_congr_right fun hh => ?_
      rw [pixel_drawColumns _ _ _ _ _ List.nodup_range hcols]
      simp [hitFrom_row hh (by omega)]
    rw [Bool.eq_iff_iff]
    simp only [Bool.or_eq_true, decide_eq_true_eq, later, hitFrom_cons]
    refine or_congr_right ?_
    constructor
    · rintro (⟨col, hcol, hb, hp⟩ | ⟨q, p, hh, hp⟩)
      · exact ⟨_, _, .inl ⟨rfl, col, hcol, rfl, hb⟩, hp⟩
      · exact ⟨q, p, .inr hh, hp⟩
    · rintro ⟨q, p, ⟨rfl, col, hcol, rfl, hb⟩ | hh, hp⟩
      · exact .inl ⟨col, hcol, hb, hp⟩
      · exact .inr ⟨q, p, hh, hp⟩

/-! The same, without deciding whether a pixel is hit. -/

theorem pixel_drawRows_of_hit {bs : List Byte} {cx cy row : Nat} {q : Fin Config.dispH} {p : Fin Config.dispW} (d : Drawing)
    (hl : row + bs.length ≤ Config.dispH) (h : hitFrom cx cy row bs q p) :
    pixel (drawRows cx cy row bs d).1 q p = !pixel d.1 q p := by
  classical
  rw [pixel_drawRows bs cx cy row d hl, decide_eq_true h, Bool.xor_true]

theorem pixel_drawRows_of_not_hit {bs : List Byte} {cx cy row : Nat} {q : Fin Config.dispH} {p : Fin Config.dispW} (d : Drawing)
    (hl : row + bs.length ≤ Config.dispH) (h : ¬ hitFrom cx cy row bs q p) :
    pixel (drawRows cx cy row bs d).1 q p = pixel d.1 q p := by
  classical
  rw [pixel_drawRows bs cx cy row d hl, decide_eq_false_iff_not.mpr h, Bool.xor_false]

theorem collision_drawRows_iff {bs : List Byte} {cx cy row : Nat} (d : Drawing) (hl : row + bs.length ≤ Config.dispH) :
    (drawRows cx cy row bs d).2 = true ↔ d.2 = true ∨ ∃ q p, hitFrom cx cy row bs q p ∧ pixel d.1 q p = true := by
  classical
  rw [collision_drawRows bs cx cy row d hl, Bool.or_eq_true, decide_eq_true_eq]

end Sys2Proof.Machine
end

