-- ==== Sys2Proof/Laws/Flags.lean ====
section
/-! SUPPORT. The value of each result, flag and computed address as a number, once per function (spec/42_alu.md R157 to R161,
spec/40_control_flow.md R128, spec/43_index_memory.md R182). -/

namespace Sys2Proof.Machine

/-! ## Results and flags -/

theorem toNat_flagByte (b : Bool) : (flagByte b).toNat = if b = true then 1 else 0 := by cases b <;> rfl

theorem toNat_addResult (a b : RegVal) : (addResult a b).toNat = (a.toNat + b.toNat) % 256 := BitVec.toNat_ofNat _ _

theorem toNat_addFlag (a b : RegVal) : (addFlag a b).toNat = if a.toNat + b.toNat > 255 then 1 else 0 := by
  simp only [addFlag, toNat_flagByte, decide_eq_true_eq]

theorem toNat_subResult (a b : RegVal) : (subResult a b).toNat = (256 + a.toNat - b.toNat) % 256 := by
  have := toNat_regVal_lt b
  have h : (subResult a b).toNat = (((a.toNat : Int) - (b.toNat : Int)) % 256).toNat := BitVec.toNat_ofInt _
  omega

theorem toNat_subFlag (a b : RegVal) : (subFlag a b).toNat = if a.toNat < b.toNat then 0 else 1 := by
  by_cases h : a.toNat < b.toNat <;> simp [subFlag, toNat_flagByte, h]

theorem toNat_shrResult (a : RegVal) : (shrResult a).toNat = a.toNat / 2 := by revert a; decide +kernel

theorem toNat_shrFlag (a : RegVal) : (shrFlag a).toNat = a.toNat % 2 := by revert a; decide +kernel

theorem toNat_shlResult (a : RegVal) : (shlResult a).toNat = 2 * a.toNat % 256 := by revert a; decide +kernel

theorem toNat_shlFlag (a : RegVal) : (shlFlag a).toNat = a.toNat / 128 := by revert a; decide +kernel

/-! ## Addresses -/

theorem toNat_zextAddr (nnn : Addr12) : (zextAddr nnn).toNat = nnn.toNat := by
  have := nnn.isLt
  rw [zextAddr, BitVec.toNat_setWidth]
  omega

/-- The sum of Bnnn never leaves 16 bits. -/
theorem toNat_indexedTarget (v0 : RegVal) (nnn : Addr12) : (indexedTarget v0 nnn).toNat = v0.toNat + nnn.toNat := by
  have := nnn.isLt
  have := toNat_regVal_lt v0
  simp only [indexedTarget, BitVec.toNat_add, BitVec.toNat_setWidth, Config.pcWidth]
  omega

/-- The product of Fx29 never leaves 16 bits. -/
theorem toNat_glyphAddress (d : RegVal) : (glyphAddress d).toNat = Config.fontBase + 5 * d.toNat := by
  have := toNat_regVal_lt d
  simp only [glyphAddress, BitVec.toNat_ofNat, Config.iWidth, Config.fontBase, Config.fontGlyphBytes]
  omega

end Sys2Proof.Machine
end

