-- ==== Sys2Proof/Laws/Memory.lean ====
section
/-! SUPPORT. What memory's two operations do: a read after a write, for every memory, and that a write keeps the canonical form. -/

namespace Sys2Proof.Machine

@[simp] theorem Memory.read_nil (a : Nat) : Memory.read [] a = initialByte a := rfl

/-- Erasing leaves no entry, so the address reads as after reset. -/
theorem Memory.read_erase_self (m : Memory) (a : Nat) : (m.erase a).read a = initialByte a := by
  induction m with
  | nil => rfl
  | cons c m ih =>
    obtain ⟨k, b⟩ := c
    by_cases h : k = a
    · simpa [Memory.erase, h] using ih
    · simpa [Memory.erase, h, Memory.read] using ih

theorem Memory.read_erase_of_ne (m : Memory) {a q : Nat} (h : q ≠ a) : (m.erase a).read q = m.read q := by
  induction m with
  | nil => rfl
  | cons c m ih =>
    obtain ⟨k, b⟩ := c
    by_cases hk : k = a
    · subst hk
      simpa [Memory.erase, Memory.read, Ne.symm h] using ih
    · by_cases hq : k = q
      · simp [Memory.erase, Memory.read, hq, h]
      · simpa [Memory.erase, hk, Memory.read, hq] using ih

/-- The entry just placed is the one found: an earlier entry for the same address would have been erased. -/
theorem Memory.read_insert_self (m : Memory) (a : Nat) (b : Byte) (h : ∀ c ∈ m, c.1 ≠ a) : (m.insert a b).read a = b := by
  induction m with
  | nil => simp [Memory.insert, Memory.read]
  | cons c m ih =>
    obtain ⟨k, d⟩ := c
    have hk : k ≠ a := h (k, d) (by simp)
    have ih := ih (fun c hc => h c (by simp [hc]))
    by_cases hlt : a < k
    · simp [Memory.insert, hlt, Memory.read]
    · simpa [Memory.insert, hlt, Memory.read, hk] using ih

theorem Memory.read_insert_of_ne (m : Memory) {a q : Nat} (b : Byte) (h : q ≠ a) : (m.insert a b).read q = m.read q := by
  induction m with
  | nil => simp [Memory.insert, Memory.read, Ne.symm h]
  | cons c m ih =>
    obtain ⟨k, d⟩ := c
    by_cases hlt : a < k
    · simp [Memory.insert, hlt, Memory.read, Ne.symm h]
    · by_cases hk : k = q
      · subst hk; simp [Memory.insert, hlt, Memory.read]
      · simpa [Memory.insert, hlt, Memory.read, hk] using ih

theorem Memory.erase_ne (m : Memory) (a : Nat) : ∀ c ∈ m.erase a, c.1 ≠ a := by
  intro c hc
  simpa using (List.mem_filter.mp hc).2

/-- A read after a write, in every memory (R60, R69): the byte written at its address, the old byte everywhere else. -/
theorem Memory.read_write (m : Memory) (a q : Nat) (b : Byte) : (m.write a b).read q = if q = a then b else m.read q := by
  unfold Memory.write
  by_cases h : q = a
  · subst h
    by_cases hb : b = initialByte q
    · simp [hb, Memory.read_erase_self]
    · simp [hb, Memory.read_insert_self _ _ _ (Memory.erase_ne m q)]
  · by_cases hb : b = initialByte a
    · simp [hb, h, Memory.read_erase_of_ne]
    · simp [hb, h, Memory.read_insert_of_ne, Memory.read_erase_of_ne]

@[simp] theorem Memory.read_write_self (m : Memory) (a : Nat) (b : Byte) : (m.write a b).read a = b := by
  simp [Memory.read_write]

theorem Memory.read_write_of_ne (m : Memory) {a q : Nat} (b : Byte) (h : q ≠ a) : (m.write a b).read q = m.read q := by
  simp [Memory.read_write, h]

/-! ## The canonical form -/

theorem Memory.mem_insert (m : Memory) (a : Nat) (b : Byte) (c : Host.Cell) : c ∈ m.insert a b ↔ c = (a, b) ∨ c ∈ m := by
  induction m with
  | nil => simp [Memory.insert]
  | cons d m ih =>
    obtain ⟨k, e⟩ := d
    by_cases hlt : a < k
    · simp [Memory.insert, hlt]
    · simp only [Memory.insert, hlt, if_false, List.mem_cons, ih]
      tauto

theorem Memory.wf_nil : Memory.wf [] := by simp [Memory.wf]

theorem Memory.wf_erase {m : Memory} (h : m.wf) (a : Nat) : (m.erase a).wf :=
  ⟨h.1.filter _, fun c hc => h.2 c (List.mem_of_mem_filter hc)⟩

theorem Memory.wf_insert {m : Memory} (h : m.wf) {a : Nat} {b : Byte} (ha : a < Config.memSize) (hb : b ≠ initialByte a)
    (hne : ∀ c ∈ m, c.1 ≠ a) : (m.insert a b).wf := by
  refine ⟨?_, fun c hc => ?_⟩
  · obtain ⟨hp, -⟩ := h
    induction m with
    | nil => simp [Memory.insert]
    | cons d m ih =>
      obtain ⟨k, e⟩ := d
      obtain ⟨hk, hp⟩ := List.pairwise_cons.mp hp
      by_cases hlt : a < k
      · rw [Memory.insert, if_pos hlt, List.pairwise_cons]
        exact ⟨by simpa [hlt] using fun p q hpq => hlt.trans (hk (p, q) hpq), List.pairwise_cons.mpr ⟨hk, hp⟩⟩
      · rw [Memory.insert, if_neg hlt, List.pairwise_cons]
        have hka : k < a := by
          have : k ≠ a := hne (k, e) (by simp)
          omega
        refine ⟨fun c hc => ?_, ih (fun c hc => hne c (by simp [hc])) hp⟩
        rcases (Memory.mem_insert m a b c).mp hc with rfl | hc
        · exact hka
        · exact hk c hc
  · rcases (Memory.mem_insert m a b c).mp hc with rfl | hc
    · exact ⟨ha, hb⟩
    · exact h.2 c hc

/-- A write below `MEM_SIZE` keeps the canonical form. -/
theorem Memory.wf_write {m : Memory} (h : m.wf) {a : Nat} (ha : a < Config.memSize) (b : Byte) : (m.write a b).wf := by
  unfold Memory.write
  split
  · exact Memory.wf_erase h a
  · next hb => exact Memory.wf_insert (Memory.wf_erase h a) ha hb (Memory.erase_ne m a)

/-! ## Writing several bytes -/

/-- A read after a store of several bytes: the stored byte inside the stored range, the old byte outside it. -/
theorem Memory.read_writeAll (bs : List Byte) (m : Memory) (a q : Nat) :
    (m.writeAll a bs).read q = if a ≤ q ∧ q < a + bs.length then bs.getD (q - a) 0 else m.read q := by
  induction bs generalizing m a with
  | nil => simp [Memory.writeAll]
  | cons b bs ih =>
    rw [Memory.writeAll, ih, Memory.read_write, List.length_cons]
    by_cases hq : q = a
    · subst hq; simp
    · by_cases hr : a + 1 ≤ q ∧ q < a + 1 + bs.length
      · have hsub : q - a = (q - (a + 1)) + 1 := by omega
        rw [if_pos hr, if_pos (by omega), hsub, List.getD_cons_succ]
      · rw [if_neg hr, if_neg hq, if_neg (by omega)]

theorem Memory.wf_writeAll (bs : List Byte) {m : Memory} (h : m.wf) {a : Nat} (ha : a + bs.length ≤ Config.memSize) :
    (m.writeAll a bs).wf := by
  induction bs generalizing m a with
  | nil => exact h
  | cons b bs ih =>
    rw [List.length_cons] at ha
    exact ih (Memory.wf_write h (by omega) b) (by omega)

/-- Canonical memories that read alike at every address are equal. -/
theorem Memory.eq_of_read_eq {m n : Memory} (hm : m.wf) (hn : n.wf) (h : ∀ a, m.read a = n.read a) : m = n := by
  have low : ∀ {m : Memory} {a : Nat}, (∀ c ∈ m, a < c.1) → m.read a = initialByte a := by
    intro m a hlow
    induction m with
    | nil => rfl
    | cons c m ih =>
      obtain ⟨k, b⟩ := c
      have : k ≠ a := by have := hlow (k, b) (by simp); simp at this; omega
      simpa [Memory.read, this] using ih (fun c hc => hlow c (by simp [hc]))
  induction m generalizing n with
  | nil =>
    cases n with
    | nil => rfl
    | cons d n =>
      have := h d.1
      simp [Memory.read] at this
      exact absurd this.symm (hn.2 d (by simp)).2
  | cons c m ih =>
    obtain ⟨k, b⟩ := c
    obtain ⟨hk, hp⟩ := List.pairwise_cons.mp hm.1
    have hkb := (hm.2 (k, b) (by simp)).2
    cases n with
    | nil =>
      have := h k
      simp [Memory.read] at this
      exact absurd this hkb
    | cons d n =>
      obtain ⟨l, e⟩ := d
      obtain ⟨hl, hq⟩ := List.pairwise_cons.mp hn.1
      have hle := (hn.2 (l, e) (by simp)).2
      have hmk : Memory.read m k = initialByte k := low hk
      have hnl : Memory.read n l = initialByte l := low hl
      have hkl : k = l := by
        rcases Nat.lt_trichotomy k l with hlt | heq | hgt
        · have hnk : Memory.read n k = initialByte k := low (fun c hc => hlt.trans (hl c hc))
          have := h k
          simp [Memory.read, Nat.ne_of_gt hlt, hnk] at this
          exact absurd this hkb
        · exact heq
        · have hml : Memory.read m l = initialByte l := low (fun c hc => hgt.trans (hk c hc))
          have := h l
          simp [Memory.read, Nat.ne_of_gt hgt, hml] at this
          exact absurd this.symm hle
      subst hkl
      have hbe : b = e := by simpa [Memory.read] using h k
      subst hbe
      have := ih ⟨hp, fun c hc => hm.2 c (by simp [hc])⟩ ⟨hq, fun c hc => hn.2 c (by simp [hc])⟩ (fun a => by
        by_cases hak : k = a
        · subst hak; rw [hmk, hnl]
        · simpa [Memory.read, hak] using h a)
      rw [this]

end Sys2Proof.Machine
end

