-- ==== Sys2Proof/Laws/State.lean ====
section
/-! SUPPORT. The small lemmas of the state's updates: for each update and each field, what the field is after it. -/

namespace Sys2Proof.Machine

/-! ## `State.setReg` -/

@[simp] theorem State.setReg_mem (s : State) (r : RegIx) (b : RegVal) : (s.setReg r b).mem = s.mem := rfl
@[simp] theorem State.setReg_fb (s : State) (r : RegIx) (b : RegVal) : (s.setReg r b).fb = s.fb := rfl
@[simp] theorem State.setReg_v (s : State) (r : RegIx) (b : RegVal) : (s.setReg r b).v = s.v.set r b := rfl
@[simp] theorem State.setReg_i (s : State) (r : RegIx) (b : RegVal) : (s.setReg r b).i = s.i := rfl
@[simp] theorem State.setReg_pc (s : State) (r : RegIx) (b : RegVal) : (s.setReg r b).pc = s.pc := rfl
@[simp] theorem State.setReg_stack (s : State) (r : RegIx) (b : RegVal) : (s.setReg r b).stack = s.stack := rfl
@[simp] theorem State.setReg_sp (s : State) (r : RegIx) (b : RegVal) : (s.setReg r b).sp = s.sp := rfl
@[simp] theorem State.setReg_key (s : State) (r : RegIx) (b : RegVal) : (s.setReg r b).key = s.key := rfl
@[simp] theorem State.setReg_dt (s : State) (r : RegIx) (b : RegVal) : (s.setReg r b).dt = s.dt := rfl
@[simp] theorem State.setReg_st (s : State) (r : RegIx) (b : RegVal) : (s.setReg r b).st = s.st := rfl
@[simp] theorem State.setReg_fault (s : State) (r : RegIx) (b : RegVal) : (s.setReg r b).fault = s.fault := rfl
@[simp] theorem State.setReg_draws (s : State) (r : RegIx) (b : RegVal) : (s.setReg r b).draws = s.draws := rfl

/-! ## `State.setI` -/

@[simp] theorem State.setI_mem (s : State) (a : AddrVal) : (s.setI a).mem = s.mem := rfl
@[simp] theorem State.setI_fb (s : State) (a : AddrVal) : (s.setI a).fb = s.fb := rfl
@[simp] theorem State.setI_v (s : State) (a : AddrVal) : (s.setI a).v = s.v := rfl
@[simp] theorem State.setI_i (s : State) (a : AddrVal) : (s.setI a).i = a := rfl
@[simp] theorem State.setI_pc (s : State) (a : AddrVal) : (s.setI a).pc = s.pc := rfl
@[simp] theorem State.setI_stack (s : State) (a : AddrVal) : (s.setI a).stack = s.stack := rfl
@[simp] theorem State.setI_sp (s : State) (a : AddrVal) : (s.setI a).sp = s.sp := rfl
@[simp] theorem State.setI_key (s : State) (a : AddrVal) : (s.setI a).key = s.key := rfl
@[simp] theorem State.setI_dt (s : State) (a : AddrVal) : (s.setI a).dt = s.dt := rfl
@[simp] theorem State.setI_st (s : State) (a : AddrVal) : (s.setI a).st = s.st := rfl
@[simp] theorem State.setI_fault (s : State) (a : AddrVal) : (s.setI a).fault = s.fault := rfl
@[simp] theorem State.setI_draws (s : State) (a : AddrVal) : (s.setI a).draws = s.draws := rfl

/-! ## `State.setPc` -/

@[simp] theorem State.setPc_mem (s : State) (a : PcVal) : (s.setPc a).mem = s.mem := rfl
@[simp] theorem State.setPc_fb (s : State) (a : PcVal) : (s.setPc a).fb = s.fb := rfl
@[simp] theorem State.setPc_v (s : State) (a : PcVal) : (s.setPc a).v = s.v := rfl
@[simp] theorem State.setPc_i (s : State) (a : PcVal) : (s.setPc a).i = s.i := rfl
@[simp] theorem State.setPc_pc (s : State) (a : PcVal) : (s.setPc a).pc = a := rfl
@[simp] theorem State.setPc_stack (s : State) (a : PcVal) : (s.setPc a).stack = s.stack := rfl
@[simp] theorem State.setPc_sp (s : State) (a : PcVal) : (s.setPc a).sp = s.sp := rfl
@[simp] theorem State.setPc_key (s : State) (a : PcVal) : (s.setPc a).key = s.key := rfl
@[simp] theorem State.setPc_dt (s : State) (a : PcVal) : (s.setPc a).dt = s.dt := rfl
@[simp] theorem State.setPc_st (s : State) (a : PcVal) : (s.setPc a).st = s.st := rfl
@[simp] theorem State.setPc_fault (s : State) (a : PcVal) : (s.setPc a).fault = s.fault := rfl
@[simp] theorem State.setPc_draws (s : State) (a : PcVal) : (s.setPc a).draws = s.draws := rfl

/-! ## `State.setDt` -/

@[simp] theorem State.setDt_mem (s : State) (b : TimerVal) : (s.setDt b).mem = s.mem := rfl
@[simp] theorem State.setDt_fb (s : State) (b : TimerVal) : (s.setDt b).fb = s.fb := rfl
@[simp] theorem State.setDt_v (s : State) (b : TimerVal) : (s.setDt b).v = s.v := rfl
@[simp] theorem State.setDt_i (s : State) (b : TimerVal) : (s.setDt b).i = s.i := rfl
@[simp] theorem State.setDt_pc (s : State) (b : TimerVal) : (s.setDt b).pc = s.pc := rfl
@[simp] theorem State.setDt_stack (s : State) (b : TimerVal) : (s.setDt b).stack = s.stack := rfl
@[simp] theorem State.setDt_sp (s : State) (b : TimerVal) : (s.setDt b).sp = s.sp := rfl
@[simp] theorem State.setDt_key (s : State) (b : TimerVal) : (s.setDt b).key = s.key := rfl
@[simp] theorem State.setDt_dt (s : State) (b : TimerVal) : (s.setDt b).dt = b := rfl
@[simp] theorem State.setDt_st (s : State) (b : TimerVal) : (s.setDt b).st = s.st := rfl
@[simp] theorem State.setDt_fault (s : State) (b : TimerVal) : (s.setDt b).fault = s.fault := rfl
@[simp] theorem State.setDt_draws (s : State) (b : TimerVal) : (s.setDt b).draws = s.draws := rfl

/-! ## `State.setSt` -/

@[simp] theorem State.setSt_mem (s : State) (b : TimerVal) : (s.setSt b).mem = s.mem := rfl
@[simp] theorem State.setSt_fb (s : State) (b : TimerVal) : (s.setSt b).fb = s.fb := rfl
@[simp] theorem State.setSt_v (s : State) (b : TimerVal) : (s.setSt b).v = s.v := rfl
@[simp] theorem State.setSt_i (s : State) (b : TimerVal) : (s.setSt b).i = s.i := rfl
@[simp] theorem State.setSt_pc (s : State) (b : TimerVal) : (s.setSt b).pc = s.pc := rfl
@[simp] theorem State.setSt_stack (s : State) (b : TimerVal) : (s.setSt b).stack = s.stack := rfl
@[simp] theorem State.setSt_sp (s : State) (b : TimerVal) : (s.setSt b).sp = s.sp := rfl
@[simp] theorem State.setSt_key (s : State) (b : TimerVal) : (s.setSt b).key = s.key := rfl
@[simp] theorem State.setSt_dt (s : State) (b : TimerVal) : (s.setSt b).dt = s.dt := rfl
@[simp] theorem State.setSt_st (s : State) (b : TimerVal) : (s.setSt b).st = b := rfl
@[simp] theorem State.setSt_fault (s : State) (b : TimerVal) : (s.setSt b).fault = s.fault := rfl
@[simp] theorem State.setSt_draws (s : State) (b : TimerVal) : (s.setSt b).draws = s.draws := rfl

/-! ## `State.advance` -/

@[simp] theorem State.advance_mem (s : State) : s.advance.mem = s.mem := rfl
@[simp] theorem State.advance_fb (s : State) : s.advance.fb = s.fb := rfl
@[simp] theorem State.advance_v (s : State) : s.advance.v = s.v := rfl
@[simp] theorem State.advance_i (s : State) : s.advance.i = s.i := rfl
@[simp] theorem State.advance_pc (s : State) : s.advance.pc = s.pc + 2 := rfl
@[simp] theorem State.advance_stack (s : State) : s.advance.stack = s.stack := rfl
@[simp] theorem State.advance_sp (s : State) : s.advance.sp = s.sp := rfl
@[simp] theorem State.advance_key (s : State) : s.advance.key = s.key := rfl
@[simp] theorem State.advance_dt (s : State) : s.advance.dt = s.dt := rfl
@[simp] theorem State.advance_st (s : State) : s.advance.st = s.st := rfl
@[simp] theorem State.advance_fault (s : State) : s.advance.fault = s.fault := rfl
@[simp] theorem State.advance_draws (s : State) : s.advance.draws = s.draws := rfl

/-! ## `State.rewind` -/

@[simp] theorem State.rewind_mem (s : State) : s.rewind.mem = s.mem := rfl
@[simp] theorem State.rewind_fb (s : State) : s.rewind.fb = s.fb := rfl
@[simp] theorem State.rewind_v (s : State) : s.rewind.v = s.v := rfl
@[simp] theorem State.rewind_i (s : State) : s.rewind.i = s.i := rfl
@[simp] theorem State.rewind_pc (s : State) : s.rewind.pc = s.pc - 2 := rfl
@[simp] theorem State.rewind_stack (s : State) : s.rewind.stack = s.stack := rfl
@[simp] theorem State.rewind_sp (s : State) : s.rewind.sp = s.sp := rfl
@[simp] theorem State.rewind_key (s : State) : s.rewind.key = s.key := rfl
@[simp] theorem State.rewind_dt (s : State) : s.rewind.dt = s.dt := rfl
@[simp] theorem State.rewind_st (s : State) : s.rewind.st = s.st := rfl
@[simp] theorem State.rewind_fault (s : State) : s.rewind.fault = s.fault := rfl
@[simp] theorem State.rewind_draws (s : State) : s.rewind.draws = s.draws := rfl

/-! ## `State.drawn` -/

@[simp] theorem State.drawn_mem (s : State) : s.drawn.mem = s.mem := rfl
@[simp] theorem State.drawn_fb (s : State) : s.drawn.fb = s.fb := rfl
@[simp] theorem State.drawn_v (s : State) : s.drawn.v = s.v := rfl
@[simp] theorem State.drawn_i (s : State) : s.drawn.i = s.i := rfl
@[simp] theorem State.drawn_pc (s : State) : s.drawn.pc = s.pc := rfl
@[simp] theorem State.drawn_stack (s : State) : s.drawn.stack = s.stack := rfl
@[simp] theorem State.drawn_sp (s : State) : s.drawn.sp = s.sp := rfl
@[simp] theorem State.drawn_key (s : State) : s.drawn.key = s.key := rfl
@[simp] theorem State.drawn_dt (s : State) : s.drawn.dt = s.dt := rfl
@[simp] theorem State.drawn_st (s : State) : s.drawn.st = s.st := rfl
@[simp] theorem State.drawn_fault (s : State) : s.drawn.fault = s.fault := rfl
@[simp] theorem State.drawn_draws (s : State) : s.drawn.draws = s.draws + 1 := rfl

/-! ## `State.setKey` -/

@[simp] theorem State.setKey_mem (s : State) (k : KeyIx) (p : Bool) : (s.setKey k p).mem = s.mem := rfl
@[simp] theorem State.setKey_fb (s : State) (k : KeyIx) (p : Bool) : (s.setKey k p).fb = s.fb := rfl
@[simp] theorem State.setKey_v (s : State) (k : KeyIx) (p : Bool) : (s.setKey k p).v = s.v := rfl
@[simp] theorem State.setKey_i (s : State) (k : KeyIx) (p : Bool) : (s.setKey k p).i = s.i := rfl
@[simp] theorem State.setKey_pc (s : State) (k : KeyIx) (p : Bool) : (s.setKey k p).pc = s.pc := rfl
@[simp] theorem State.setKey_stack (s : State) (k : KeyIx) (p : Bool) : (s.setKey k p).stack = s.stack := rfl
@[simp] theorem State.setKey_sp (s : State) (k : KeyIx) (p : Bool) : (s.setKey k p).sp = s.sp := rfl
@[simp] theorem State.setKey_key (s : State) (k : KeyIx) (p : Bool) : (s.setKey k p).key = s.key.set k p := rfl
@[simp] theorem State.setKey_dt (s : State) (k : KeyIx) (p : Bool) : (s.setKey k p).dt = s.dt := rfl
@[simp] theorem State.setKey_st (s : State) (k : KeyIx) (p : Bool) : (s.setKey k p).st = s.st := rfl
@[simp] theorem State.setKey_fault (s : State) (k : KeyIx) (p : Bool) : (s.setKey k p).fault = s.fault := rfl
@[simp] theorem State.setKey_draws (s : State) (k : KeyIx) (p : Bool) : (s.setKey k p).draws = s.draws := rfl

/-! ## `State.faulted` -/

@[simp] theorem State.faulted_mem (s : State) (f : Fault) : (s.faulted f).mem = s.mem := rfl
@[simp] theorem State.faulted_fb (s : State) (f : Fault) : (s.faulted f).fb = s.fb := rfl
@[simp] theorem State.faulted_v (s : State) (f : Fault) : (s.faulted f).v = s.v := rfl
@[simp] theorem State.faulted_i (s : State) (f : Fault) : (s.faulted f).i = s.i := rfl
@[simp] theorem State.faulted_pc (s : State) (f : Fault) : (s.faulted f).pc = s.pc := rfl
@[simp] theorem State.faulted_stack (s : State) (f : Fault) : (s.faulted f).stack = s.stack := rfl
@[simp] theorem State.faulted_sp (s : State) (f : Fault) : (s.faulted f).sp = s.sp := rfl
@[simp] theorem State.faulted_key (s : State) (f : Fault) : (s.faulted f).key = s.key := rfl
@[simp] theorem State.faulted_dt (s : State) (f : Fault) : (s.faulted f).dt = s.dt := rfl
@[simp] theorem State.faulted_st (s : State) (f : Fault) : (s.faulted f).st = s.st := rfl
@[simp] theorem State.faulted_fault (s : State) (f : Fault) : (s.faulted f).fault = some f := rfl
@[simp] theorem State.faulted_draws (s : State) (f : Fault) : (s.faulted f).draws = s.draws := rfl

/-! ## Reading a register -/

theorem State.reg_eq (s : State) (r : RegIx) : s.reg r = s.v[r] := rfl

/-- A register after a register write. -/
theorem State.reg_setReg (s : State) (q r : RegIx) (b : RegVal) :
    (s.setReg r b).reg q = if q = r then b else s.reg q := by
  simp only [State.reg, State.setReg_v, Fin.getElem_fin, Vector.getElem_set]
  by_cases h : q = r
  · simp [h]
  · simp [h, Fin.val_inj, Ne.symm h]

@[simp] theorem State.reg_setReg_self (s : State) (r : RegIx) (b : RegVal) : (s.setReg r b).reg r = b := by
  simp [State.reg_setReg]

theorem State.reg_setReg_ne (s : State) (q r : RegIx) (b : RegVal) (h : q ≠ r) : (s.setReg r b).reg q = s.reg q := by
  simp [State.reg_setReg, h]

/-- Two writes of one register: the last one stands. -/
theorem State.setReg_setReg (s : State) (r : RegIx) (a b : RegVal) : (s.setReg r a).setReg r b = s.setReg r b := by
  simp [State.setReg]

/-- A skip moves `pc` by 2 if its condition holds, and changes nothing else (R129). -/
theorem State.skipIf_eq (s : State) (c : Bool) : s.skipIf c = s.setPc (if c then s.pc + 2 else s.pc) := by
  cases c <;> rfl

/-- The keypad after a key write. -/
theorem State.key_setKey (s : State) (q k : KeyIx) (p : Bool) :
    (s.setKey k p).key[q] = if q = k then p else s.key[q] := by
  simp only [State.setKey_key, Fin.getElem_fin, Vector.getElem_set]
  by_cases h : q = k
  · simp [h]
  · simp [h, Fin.val_inj, Ne.symm h]

/-- Two states with equal fields are equal. -/
theorem State.eq_of_fields {s t : State} (h1 : s.mem = t.mem) (h2 : s.fb = t.fb) (h3 : s.v = t.v) (h4 : s.i = t.i)
    (h5 : s.pc = t.pc) (h6 : s.stack = t.stack) (h7 : s.sp = t.sp) (h8 : s.key = t.key) (h9 : s.dt = t.dt)
    (h10 : s.st = t.st) (h11 : s.fault = t.fault) (h12 : s.draws = t.draws) : s = t := by
  cases s; cases t; simp_all

end Sys2Proof.Machine
end

