-- ==== Sys2Proof/Laws/Ops.lean ====
section
/-! SUPPORT. What each shared operation can do, said once: the bounds-checked accesses, the call stack, the keypad, the flag-writing
pair of writes, the address addition and the register load. -/

namespace Sys2Proof.Machine

/-! ## Memory -/

/-- The address of an access through `I` with no offset. -/
@[simp] theorem State.effAddr_zero (s : State) : s.effAddr 0 = s.i.toNat := rfl

theorem State.effAddr_eq (s : State) (k : Nat) : s.effAddr k = s.i.toNat + k := rfl

/-- A run of reads answers the bytes in memory, or faults at the first address out of memory (R9, R66). -/
theorem readBytes_eq (s : State) (n a : Nat) :
    readBytes s a n =
      if n = 0 ∨ a + n ≤ Config.memSize then .ok ((List.range n).map (fun k => s.mem.read (a + k)))
      else .error (.outOfBounds .memRead (max a Config.memSize)) := by
  induction n generalizing a with
  | zero => rfl
  | succ n ih =>
    have shift : (List.range n).map (fun k => s.mem.read (a + 1 + k)) =
        (List.range n).map ((fun k => s.mem.read (a + k)) ∘ Nat.succ) := by
      refine List.map_congr_left fun k _ => ?_
      simp [Nat.succ_eq_add_one]; congr 1; omega
    unfold readBytes memRead
    by_cases ha : a < Config.memSize
    · rw [if_pos ha]
      by_cases hn : n = 0 ∨ a + 1 + n ≤ Config.memSize
      · rw [ih, if_pos hn, if_pos (by omega), List.range_succ_eq_map]
        simp [shift]
      · rw [ih, if_neg hn, if_neg (by omega)]
        simp only [Except.error.injEq, Fault.outOfBounds.injEq, true_and]
        omega
    · rw [if_neg ha, if_neg (by omega)]
      simp only [Except.error.injEq, Fault.outOfBounds.injEq, true_and]
      omega

/-- A run of writes stores its bytes and changes nothing else, or faults at the first address out of memory (R9, R66). -/
theorem storeBytes_eq (bs : List Byte) (s : State) (a : Nat) :
    storeBytes s a bs =
      if bs = [] ∨ a + bs.length ≤ Config.memSize then .ok { s with mem := s.mem.writeAll a bs }
      else .error (.outOfBounds .memWrite (max a Config.memSize)) := by
  induction bs generalizing s a with
  | nil => simp [storeBytes, Memory.writeAll]
  | cons b bs ih =>
    unfold storeBytes memWrite
    simp only [Config.memSize] at ih ⊢
    by_cases ha : a < 4096
    · rw [if_pos ha]
      simp only [ih]
      by_cases hb : bs = []
      · subst hb
        have : a + 1 ≤ 4096 := ha
        simp [Memory.writeAll, this]
      · by_cases hn : a + 1 + bs.length ≤ 4096
        · rw [if_pos (.inr hn), if_pos (.inr (by rw [List.length_cons]; omega))]
          rfl
        · rw [if_neg (by simp [hb]; omega), if_neg (by simp; omega)]
          simp only [Except.error.injEq, Fault.outOfBounds.injEq, true_and]
          omega
    · rw [if_neg ha, if_neg (by simp; omega)]
      simp only [Except.error.injEq, Fault.outOfBounds.injEq, true_and]
      omega

@[simp] theorem State.regsUpTo_length (s : State) (x : RegIx) : (s.regsUpTo x).length = x.val + 1 := by
  have := x.isLt
  simp [State.regsUpTo]

/-- The `k`-th byte of V0 to Vx is Vk. -/
theorem State.regsUpTo_getD (s : State) (x k : RegIx) (h : k ≤ x) : (s.regsUpTo x).getD k.val 0 = s.reg k := by
  have hk : k.val < x.val + 1 := Nat.lt_succ_of_le h
  simp [State.regsUpTo, State.reg, List.getD_eq_getElem?_getD, hk]

/-- A register load writes register `k + j` with byte `j`, and changes nothing else. -/
theorem loadRegsFrom_reg (bs : List Byte) (s : State) (k : Nat) (h : k + bs.length ≤ Config.regCount) (r : RegIx) :
    (loadRegsFrom s k bs).reg r = if k ≤ r.val ∧ r.val < k + bs.length then bs.getD (r.val - k) 0 else s.reg r := by
  induction bs generalizing s k with
  | nil => simp [loadRegsFrom]
  | cons b bs ih =>
    rw [List.length_cons] at h ⊢
    have hk : k < Config.regCount := by omega
    rw [loadRegsFrom, dif_pos hk, ih _ _ (by omega), State.reg_setReg]
    by_cases hq : r.val = k
    · have hr : r = ⟨k, hk⟩ := Fin.ext hq
      simp [hr]
    · have hr : r ≠ ⟨k, hk⟩ := fun e => hq (congrArg Fin.val e)
      by_cases hin : k + 1 ≤ r.val ∧ r.val < k + 1 + bs.length
      · have hsub : r.val - k = (r.val - (k + 1)) + 1 := by omega
        rw [if_pos hin, if_pos (by omega), hsub, List.getD_cons_succ]
      · rw [if_neg hin, if_neg hr, if_neg (by omega)]

theorem loadRegsFrom_frame (bs : List Byte) (s : State) (k : Nat) : ∃ w, loadRegsFrom s k bs = { s with v := w } := by
  induction bs generalizing s k with
  | nil => exact ⟨s.v, rfl⟩
  | cons b bs ih =>
    rw [loadRegsFrom]
    split
    · obtain ⟨w, hw⟩ := ih (s.setReg ⟨k, ‹_›⟩ b) (k + 1)
      exact ⟨w, hw⟩
    · exact ⟨s.v, rfl⟩

/-! ## Registers -/

/-- The registers after the two writes of R150: VF holds the flag, but that under `result_last` a destination VF holds the result. -/
theorem writeFlagged_reg (order : VfOrder) (x : RegIx) (res flag : RegVal) (s : State) (r : RegIx) :
    (writeFlagged order x res flag s).reg r =
      if r = Config.flagReg then (if x = Config.flagReg ∧ order = .resultLast then res else flag)
      else if r = x then res else s.reg r := by
  cases order
  · simp [writeFlagged, State.reg_setReg]
  · simp only [writeFlagged, State.reg_setReg, and_true]
    by_cases h : r = Config.flagReg
    · subst h
      simp [eq_comm]
    · simp [h]

theorem writeFlagged_frame (order : VfOrder) (x : RegIx) (res flag : RegVal) (s : State) :
    ∃ w, writeFlagged order x res flag s = { s with v := w } := by
  cases order <;> exact ⟨_, rfl⟩

/-- The address addition: the exact sum where it fits, else as `I_OVERFLOW` says (R181). -/
theorem addAddress_eq (how : IOverflow) (b : RegVal) (s : State) :
    addAddress how b s =
      if s.i.toNat + b.toNat ≤ 0xFFFF ∨ how = .wrap then .ok (s.setI (BitVec.ofNat Config.iWidth (s.i.toNat + b.toNat)))
      else .error (.outOfBounds .addrOverflow (s.i.toNat + b.toNat)) := by
  unfold addAddress
  rw [show (2 ^ Config.iWidth : Nat) = 0xFFFF + 1 from rfl]
  by_cases h : s.i.toNat + b.toNat ≤ 0xFFFF
  · rw [if_pos (Nat.lt_succ_of_le h), if_pos (.inl h)]
  · rw [if_neg (by omega)]
    cases how <;> simp [h]

/-! ## The call stack -/

theorem State.push_of_lt (s : State) (a : PcVal) (h : s.sp.val < Config.stackDepth) :
    s.push a = .ok { s with stack := s.stack.set s.sp.val a h, sp := ⟨s.sp.val + 1, Nat.succ_lt_succ h⟩ } :=
  dif_pos h

theorem State.push_full (s : State) (a : PcVal) (h : s.sp.val = Config.stackDepth) :
    s.push a = .error (.outOfBounds .stackOverflow Config.stackDepth) := by
  rw [State.push, dif_neg (by omega), h]

theorem State.pop_empty (s : State) (h : s.sp.val = 0) : s.pop = .error (.outOfBounds .stackUnderflow 0) := by
  rw [State.pop, dif_pos h, h]

theorem State.pop_of_pos (s : State) (h : s.sp.val ≠ 0) (hl : s.sp.val - 1 < Config.stackDepth) :
    s.pop = .ok (s.stack[s.sp.val - 1], { s with sp := ⟨s.sp.val - 1, Nat.lt_succ_of_lt hl⟩ }) :=
  dif_neg h

/-! ## The keypad -/

theorem keyIndex_of_lt {k : Nat} (h : k < Config.numKeys) : keyIndex k = .ok ⟨k, h⟩ := dif_pos h

theorem keyIndex_of_ge {k : Nat} (h : ¬ k < Config.numKeys) : keyIndex k = .error (.outOfBounds .keyIndex k) := dif_neg h

theorem State.mem_pressed (s : State) (k : KeyIx) : k ∈ s.pressed ↔ s.key[k] = true := by
  simp [State.pressed]

/-- Fx0A's choice is a member of the pressed set, whatever the free value. -/
theorem pickKey_mem {how : KeyPick} {free : Nat} {p : List KeyIx} {k : KeyIx} (h : pickKey how free p = some k) : k ∈ p := by
  cases p with
  | nil => simp [pickKey] at h
  | cons a as =>
    cases how
    · exact List.mem_of_getElem? h
    · simp_all [pickKey]

/-- Fx0A waits exactly when no key is pressed. -/
theorem pickKey_eq_none (how : KeyPick) (free : Nat) (p : List KeyIx) : pickKey how free p = none ↔ p = [] := by
  cases p with
  | nil => simp [pickKey]
  | cons a as =>
    cases how
    · simp only [pickKey, List.getElem?_eq_none_iff, List.length_cons, reduceCtorEq, iff_false, not_le]
      exact Nat.mod_lt _ (Nat.succ_pos _)
    · simp [pickKey]

end Sys2Proof.Machine
end

