-- ==== Sys2Proof/Laws/PerInstr.lean ====
section
/-! SUPPORT. Per instruction: its opcode has the fixed bits of its own row of the opcode table (spec/30_encoding.md R95, R96). -/

namespace Sys2Proof.Laws.EncodedRow

/-- The position in the opcode table of an instruction's row. -/
def rowIndex : Instr → Nat
  | .nop => 0
  | .cls => 1
  | .ret => 2
  | .jp _ => 3
  | .call _ => 4
  | .seByte _ _ => 5
  | .sneByte _ _ => 6
  | .seReg _ _ => 7
  | .ldByte _ _ => 8
  | .addByte _ _ => 9
  | .ldReg _ _ => 10
  | .orReg _ _ => 11
  | .andReg _ _ => 12
  | .xorReg _ _ => 13
  | .addReg _ _ => 14
  | .sub _ _ => 15
  | .shr _ => 16
  | .subn _ _ => 17
  | .shl _ => 18
  | .sneReg _ _ => 19
  | .ldI _ => 20
  | .jpV0 _ => 21
  | .rnd _ _ => 22
  | .drw _ _ _ => 23
  | .skp _ => 24
  | .sknp _ => 25
  | .ldVxDt _ => 26
  | .ldVxK _ => 27
  | .ldDtVx _ => 28
  | .ldStVx _ => 29
  | .addI _ => 30
  | .ldF _ => 31
  | .ldB _ => 32
  | .stRegs _ => 33
  | .ldRegs _ => 34

/-- The instruction's row of the table accepts the word the encoder gives it. -/
def Statement (i : Instr) : Prop := ∃ r, opcodeTable[rowIndex i]? = some r ∧ r.accepts (encode i) = true

/-- A word built from a row's fixed bits and fields outside its mask is accepted by the row. -/
theorem accepts_or {pattern mask a : Word} {build : Word → Instr} (hp : pattern &&& mask = pattern) (ha : a &&& mask = 0) :
    (OpcodeRow.mk pattern mask build).accepts (pattern ||| a) = true := by
  simp [OpcodeRow.accepts, BitVec.and_or_distrib_right, hp, ha]

/-- A field outside a mask: its place and the mask share no bit. -/
theorem and_eq_zero {a place mask : Word} (ha : a &&& place = a) (h : place &&& mask = 0) : a &&& mask = 0 := by
  rw [← ha, BitVec.and_assoc, h]; simp

theorem or_and_eq_zero {a b mask : Word} (ha : a &&& mask = 0) (hb : b &&& mask = 0) : (a ||| b) &&& mask = 0 := by
  simp [BitVec.and_or_distrib_right, ha, hb]

theorem nop : Statement .nop :=
  ⟨_, rfl, by decide⟩

theorem cls : Statement .cls :=
  ⟨_, rfl, by decide⟩

theorem ret : Statement .ret :=
  ⟨_, rfl, by decide⟩

theorem jp (nnn : Addr12) : Statement (.jp nnn) :=
  ⟨_, rfl, accepts_or (by decide) (and_eq_zero (placeNNN_mask nnn) (by decide))⟩

theorem call (nnn : Addr12) : Statement (.call nnn) :=
  ⟨_, rfl, accepts_or (by decide) (and_eq_zero (placeNNN_mask nnn) (by decide))⟩

theorem seByte (x : RegIx) (kk : Byte) : Statement (.seByte x kk) :=
  ⟨_, rfl, by
    simp only [encode, BitVec.or_assoc]
    exact accepts_or (by decide) (or_and_eq_zero (and_eq_zero (placeX_mask x) (by decide)) (and_eq_zero (placeKK_mask kk) (by decide)))⟩

theorem sneByte (x : RegIx) (kk : Byte) : Statement (.sneByte x kk) :=
  ⟨_, rfl, by
    simp only [encode, BitVec.or_assoc]
    exact accepts_or (by decide) (or_and_eq_zero (and_eq_zero (placeX_mask x) (by decide)) (and_eq_zero (placeKK_mask kk) (by decide)))⟩

theorem seReg (x : RegIx) (y : RegIx) : Statement (.seReg x y) :=
  ⟨_, rfl, by
    simp only [encode, BitVec.or_assoc]
    exact accepts_or (by decide) (or_and_eq_zero (and_eq_zero (placeX_mask x) (by decide)) (and_eq_zero (placeY_mask y) (by decide)))⟩

theorem ldByte (x : RegIx) (kk : Byte) : Statement (.ldByte x kk) :=
  ⟨_, rfl, by
    simp only [encode, BitVec.or_assoc]
    exact accepts_or (by decide) (or_and_eq_zero (and_eq_zero (placeX_mask x) (by decide)) (and_eq_zero (placeKK_mask kk) (by decide)))⟩

theorem addByte (x : RegIx) (kk : Byte) : Statement (.addByte x kk) :=
  ⟨_, rfl, by
    simp only [encode, BitVec.or_assoc]
    exact accepts_or (by decide) (or_and_eq_zero (and_eq_zero (placeX_mask x) (by decide)) (and_eq_zero (placeKK_mask kk) (by decide)))⟩

theorem ldReg (x : RegIx) (y : RegIx) : Statement (.ldReg x y) :=
  ⟨_, rfl, by
    simp only [encode, BitVec.or_assoc]
    exact accepts_or (by decide) (or_and_eq_zero (and_eq_zero (placeX_mask x) (by decide)) (and_eq_zero (placeY_mask y) (by decide)))⟩

theorem orReg (x : RegIx) (y : RegIx) : Statement (.orReg x y) :=
  ⟨_, rfl, by
    simp only [encode, BitVec.or_assoc]
    exact accepts_or (by decide) (or_and_eq_zero (and_eq_zero (placeX_mask x) (by decide)) (and_eq_zero (placeY_mask y) (by decide)))⟩

theorem andReg (x : RegIx) (y : RegIx) : Statement (.andReg x y) :=
  ⟨_, rfl, by
    simp only [encode, BitVec.or_assoc]
    exact accepts_or (by decide) (or_and_eq_zero (and_eq_zero (placeX_mask x) (by decide)) (and_eq_zero (placeY_mask y) (by decide)))⟩

theorem xorReg (x : RegIx) (y : RegIx) : Statement (.xorReg x y) :=
  ⟨_, rfl, by
    simp only [encode, BitVec.or_assoc]
    exact accepts_or (by decide) (or_and_eq_zero (and_eq_zero (placeX_mask x) (by decide)) (and_eq_zero (placeY_mask y) (by decide)))⟩

theorem addReg (x : RegIx) (y : RegIx) : Statement (.addReg x y) :=
  ⟨_, rfl, by
    simp only [encode, BitVec.or_assoc]
    exact accepts_or (by decide) (or_and_eq_zero (and_eq_zero (placeX_mask x) (by decide)) (and_eq_zero (placeY_mask y) (by decide)))⟩

theorem sub (x : RegIx) (y : RegIx) : Statement (.sub x y) :=
  ⟨_, rfl, by
    simp only [encode, BitVec.or_assoc]
    exact accepts_or (by decide) (or_and_eq_zero (and_eq_zero (placeX_mask x) (by decide)) (and_eq_zero (placeY_mask y) (by decide)))⟩

theorem shr (x : RegIx) : Statement (.shr x) :=
  ⟨_, rfl, accepts_or (by decide) (and_eq_zero (placeX_mask x) (by decide))⟩

theorem subn (x : RegIx) (y : RegIx) : Statement (.subn x y) :=
  ⟨_, rfl, by
    simp only [encode, BitVec.or_assoc]
    exact accepts_or (by decide) (or_and_eq_zero (and_eq_zero (placeX_mask x) (by decide)) (and_eq_zero (placeY_mask y) (by decide)))⟩

theorem shl (x : RegIx) : Statement (.shl x) :=
  ⟨_, rfl, accepts_or (by decide) (and_eq_zero (placeX_mask x) (by decide))⟩

theorem sneReg (x : RegIx) (y : RegIx) : Statement (.sneReg x y) :=
  ⟨_, rfl, by
    simp only [encode, BitVec.or_assoc]
    exact accepts_or (by decide) (or_and_eq_zero (and_eq_zero (placeX_mask x) (by decide)) (and_eq_zero (placeY_mask y) (by decide)))⟩

theorem ldI (nnn : Addr12) : Statement (.ldI nnn) :=
  ⟨_, rfl, accepts_or (by decide) (and_eq_zero (placeNNN_mask nnn) (by decide))⟩

theorem jpV0 (nnn : Addr12) : Statement (.jpV0 nnn) :=
  ⟨_, rfl, accepts_or (by decide) (and_eq_zero (placeNNN_mask nnn) (by decide))⟩

theorem rnd (x : RegIx) (kk : Byte) : Statement (.rnd x kk) :=
  ⟨_, rfl, by
    simp only [encode, BitVec.or_assoc]
    exact accepts_or (by decide) (or_and_eq_zero (and_eq_zero (placeX_mask x) (by decide)) (and_eq_zero (placeKK_mask kk) (by decide)))⟩

theorem drw (x : RegIx) (y : RegIx) (n : Nat) : Statement (.drw x y n) :=
  ⟨_, rfl, by
    simp only [encode, BitVec.or_assoc]
    exact accepts_or (by decide) (or_and_eq_zero (and_eq_zero (placeX_mask x) (by decide)) (or_and_eq_zero (and_eq_zero (placeY_mask y) (by decide)) (and_eq_zero (placeN_mask n) (by decide))))⟩

theorem skp (x : RegIx) : Statement (.skp x) :=
  ⟨_, rfl, accepts_or (by decide) (and_eq_zero (placeX_mask x) (by decide))⟩

theorem sknp (x : RegIx) : Statement (.sknp x) :=
  ⟨_, rfl, accepts_or (by decide) (and_eq_zero (placeX_mask x) (by decide))⟩

theorem ldVxDt (x : RegIx) : Statement (.ldVxDt x) :=
  ⟨_, rfl, accepts_or (by decide) (and_eq_zero (placeX_mask x) (by decide))⟩

theorem ldVxK (x : RegIx) : Statement (.ldVxK x) :=
  ⟨_, rfl, accepts_or (by decide) (and_eq_zero (placeX_mask x) (by decide))⟩

theorem ldDtVx (x : RegIx) : Statement (.ldDtVx x) :=
  ⟨_, rfl, accepts_or (by decide) (and_eq_zero (placeX_mask x) (by decide))⟩

theorem ldStVx (x : RegIx) : Statement (.ldStVx x) :=
  ⟨_, rfl, accepts_or (by decide) (and_eq_zero (placeX_mask x) (by decide))⟩

theorem addI (x : RegIx) : Statement (.addI x) :=
  ⟨_, rfl, accepts_or (by decide) (and_eq_zero (placeX_mask x) (by decide))⟩

theorem ldF (x : RegIx) : Statement (.ldF x) :=
  ⟨_, rfl, accepts_or (by decide) (and_eq_zero (placeX_mask x) (by decide))⟩

theorem ldB (x : RegIx) : Statement (.ldB x) :=
  ⟨_, rfl, accepts_or (by decide) (and_eq_zero (placeX_mask x) (by decide))⟩

theorem stRegs (x : RegIx) : Statement (.stRegs x) :=
  ⟨_, rfl, accepts_or (by decide) (and_eq_zero (placeX_mask x) (by decide))⟩

theorem ldRegs (x : RegIx) : Statement (.ldRegs x) :=
  ⟨_, rfl, accepts_or (by decide) (and_eq_zero (placeX_mask x) (by decide))⟩

end Sys2Proof.Laws.EncodedRow
end

