-- ==== Sys2Proof/Laws/Step.lean ====
section
/-! SUPPORT. What the fetch, the step and the host operations can do, said once. -/

namespace Sys2Proof.Machine

/-! ## Fetch (R93) -/

theorem fetch_of_lt {s : State} (h : s.pc.toNat + 1 < Config.memSize) :
    fetch s = .ok (wordOfBytes (s.mem.read s.pc.toNat) (s.mem.read (s.pc.toNat + 1)), s.advance) := by
  rw [fetch, if_neg (by omega)]

theorem fetch_of_ge {s : State} (h : s.pc.toNat + 1 ≥ Config.memSize) : fetch s = .error (.outOfBounds .fetch s.pc.toNat) := by
  rw [fetch, if_pos h]

/-- The fetch leaves `pc` between 2 and `MEM_SIZE`, so neither a skip nor the rewind of Fx0A leaves 16 bits (R25). -/
theorem toNat_pc_advance {s : State} (h : s.pc.toNat + 1 < Config.memSize) : s.advance.pc.toNat = s.pc.toNat + 2 := by
  simp only [Config.memSize] at h
  rw [State.advance_pc, BitVec.toNat_add]
  simp
  omega

/-! ## Step (R94) -/

/-- A step that completes is the decoded instruction's, on the fetched state. -/
theorem step_eq_next {s t : State} (h : step s = .next t) :
    s.fault = none ∧ s.pc.toNat + 1 < Config.memSize ∧
      ∃ i, decodeWord (wordOfBytes (s.mem.read s.pc.toNat) (s.mem.read (s.pc.toNat + 1))) = some i ∧ exec i s.advance = .next t := by
  unfold step at h
  split at h
  · cases h
  · next hf =>
    by_cases hp : s.pc.toNat + 1 < Config.memSize
    · rw [fetch_of_lt hp] at h
      dsimp only at h
      split at h
      · cases h
      · next i hi => exact ⟨hf, hp, i, hi, h⟩
    · rw [fetch_of_ge (by omega)] at h
      cases h

/-! ## Host operations (R241) -/

theorem unlessFaulted_of_none {f : State → Outcome} {s : State} (h : s.fault = none) : unlessFaulted f s = f s := by
  rw [unlessFaulted, h]

theorem unlessFaulted_of_some {f : State → Outcome} {s : State} {g : Fault} (h : s.fault = some g) :
    unlessFaulted f s = .refused .faultedState := by
  rw [unlessFaulted, h]

/-- A timer tick takes 1 away, with its floor at 0 (R250). -/
theorem toNat_countDown (b : TimerVal) : (countDown b).toNat = b.toNat - 1 := by revert b; decide +kernel

/-- A host operation completes as its state part does, with its answer. -/
theorem hostCall_eq_next {c : HostCall} {s t : State} {r : HostReply} :
    hostCall c s = .next (t, r) ↔ hostState c s = .next t ∧ r = hostReply c s := by
  unfold hostCall
  cases hostState c s <;> simp [eq_comm]

end Sys2Proof.Machine
end

