-- ==== Sys2Proof/Tests/Slice0.lean ====
section
/-! SUPPORT. The model's own tests. Every expected result is a vector of spec/95_test_vectors.md or is worked out by hand from the rule
named beside it. A `test_…` theorem checks one step on a small state; a `witness_…` theorem meets the hypotheses of the statement it is
named after. -/

open Sys2Proof Sys2Proof.Machine

/-! ## Helpers -/

/-- The outcome is a next state that passes the check. -/
def nextHas (o : Outcome) (check : State → Bool) : Bool :=
  match o with
  | .next t => check t
  | .fault _ => false
  | .refused _ => false

/-- The outcome is that fault. -/
def stopsWith (o : Outcome) (f : Fault) : Bool :=
  match o with
  | .next _ => false
  | .fault g => decide (g = f)
  | .refused _ => false

/-- One step on `s` with the word `op` at its `pc`. -/
def run (op : Word) (s : State) : Outcome := step (placeWord s op)

/-- `s` with bytes in memory from `a` upwards. -/
def withBytes (s : State) (a : Nat) (bs : List Byte) : State := { s with mem := s.mem.writeAll a bs }

/-- `s` with the pixel at row `r` and column `c` toggled. -/
def withPixel (s : State) (r : Fin 32) (c : Fin 64) : State := { s with fb := flipPixel s.fb r c }

/-- The reset state with V1, V2 and VF given, the start of the ALU vectors. -/
def aluStart (a b f : Byte) : State := ((State.reset.setReg 1 a).setReg 2 b).setReg 15 f

/-- The reset state with a stack pointer given and 0x456 in slot 1. -/
def stackStart (sp : Fin 17) : State := { State.reset with sp := sp, stack := State.reset.stack.set 1 0x456 }

/-- The state after a completed step, for a witness; the state itself where it does not complete. -/
def after (o : Outcome) (s : State) : State :=
  match o with
  | .next t => t
  | .fault _ => s
  | .refused _ => s

/-! ## Well-formedness: the one check, at its boundary (R92) -/

theorem test_wellFormed_refuses_sixteen_rows : (Instr.drw 0 1 16).wellFormed = false := by decide
theorem test_wellFormed_admits_fifteen_rows : (Instr.drw 0 1 15).wellFormed = true := by decide

/-! ## The parameters: the numbers of R6's table -/

theorem test_sizes :
    (params.regCount, params.regWidth, params.flagReg, params.pcWidth, params.iWidth, params.memSize) = (16, 8, 0xF, 16, 16, 4096) ∧
    (params.fontBase, params.fontGlyphBytes, params.fontLen, params.loadAddr, params.maxImage) = (0, 5, 80, 0x200, 3584) ∧
    (params.stackDepth, params.dispW, params.dispH, params.spriteW, params.numKeys, params.timerWidth, params.insnBytes) =
      (16, 64, 32, 8, 16, 8, 2) := by decide

/-! ## Decoding: words written out nibble by nibble from the encodings of R95 -/

theorem test_decode_control :
    decodeWord 0b0000_0000_0000_0000 = some .nop ∧
    decodeWord 0b0000_0000_1110_1110 = some .ret ∧
    decodeWord 0b0001_1010_1011_1100 = some (.jp 0xABC) ∧
    decodeWord 0b0010_0001_0010_0011 = some (.call 0x123) ∧
    decodeWord 0b0011_0110_1110_0001 = some (.seByte 6 0xE1) ∧
    decodeWord 0b0100_0110_1110_0001 = some (.sneByte 6 0xE1) ∧
    decodeWord 0b0101_0111_1101_0000 = some (.seReg 7 13) ∧
    decodeWord 0b1001_0111_1101_0000 = some (.sneReg 7 13) ∧
    decodeWord 0b1011_1111_0000_1010 = some (.jpV0 0xF0A) := by decide

theorem test_decode_display :
    decodeWord 0b0000_0000_1110_0000 = some .cls ∧
    decodeWord 0b1101_1001_0011_1111 = some (.drw 9 3 15) := by decide

theorem test_decode_alu :
    decodeWord 0b0110_1000_0111_1110 = some (.ldByte 8 0x7E) ∧
    decodeWord 0b0111_1000_0111_1110 = some (.addByte 8 0x7E) ∧
    decodeWord 0b1000_0100_1011_0000 = some (.ldReg 4 11) ∧
    decodeWord 0b1000_0100_1011_0001 = some (.orReg 4 11) ∧
    decodeWord 0b1000_0100_1011_0010 = some (.andReg 4 11) ∧
    decodeWord 0b1000_0100_1011_0011 = some (.xorReg 4 11) ∧
    decodeWord 0b1000_0100_1011_0100 = some (.addReg 4 11) ∧
    decodeWord 0b1000_0100_1011_0101 = some (.sub 4 11) ∧
    decodeWord 0b1000_0100_1011_0110 = some (.shr 4) ∧
    decodeWord 0b1000_0100_1011_0111 = some (.subn 4 11) ∧
    decodeWord 0b1000_0100_1011_1110 = some (.shl 4) ∧
    decodeWord 0b1100_0010_0101_1010 = some (.rnd 2 0x5A) := by decide

theorem test_decode_index :
    decodeWord 0b1010_0000_0001_0010 = some (.ldI 0x012) ∧
    decodeWord 0b1111_0011_0001_1110 = some (.addI 3) ∧
    decodeWord 0b1111_0011_0010_1001 = some (.ldF 3) ∧
    decodeWord 0b1111_0011_0011_0011 = some (.ldB 3) ∧
    decodeWord 0b1111_0011_0101_0101 = some (.stRegs 3) ∧
    decodeWord 0b1111_0011_0110_0101 = some (.ldRegs 3) := by decide

theorem test_decode_keypad_and_timers :
    decodeWord 0b1110_1100_1001_1110 = some (.skp 12) ∧
    decodeWord 0b1110_1100_1010_0001 = some (.sknp 12) ∧
    decodeWord 0b1111_1100_0000_0111 = some (.ldVxDt 12) ∧
    decodeWord 0b1111_1100_0000_1010 = some (.ldVxK 12) ∧
    decodeWord 0b1111_1100_0001_0101 = some (.ldDtVx 12) ∧
    decodeWord 0b1111_1100_0001_1000 = some (.ldStVx 12) := by decide

/-- The unrecognized words of the fetch and decode vectors. -/
theorem test_decode_refuses :
    List.Forall (fun op => decodeWord op = none)
      [0x0123, 0x00E1, 0x5121, 0x8128, 0x812F, 0x9121, 0xE19F, 0xF100, 0xFFFF] := by
  simp only [List.Forall]
  decide

/-- Big-endian bytes, and the bytes after the instruction are left (R62, R90). -/
theorem test_decode_bytes :
    decode [0x12, 0x34, 0x56] = .ok (.jp 0x234, [0x56]) ∧ decode [0x81, 0x2F] = .error (.unrecognizedOpcode 0x812F) ∧
    decode [0x12] = .error (.truncated 1) := by decide

/-- The host's two entry points agree with the decoder and the step. -/
theorem test_table_word :
    decodeTableWord 16 0x6A05 = some (.ldByte 10 0x05) ∧ decodeTableWord 16 0x0123 = none ∧
    nextHas (step (State.reset.withFetchWord 16 0x6A05)) (fun t => decide (t.reg 10 = 0x05 ∧ t.pc = 0x202)) = true := by decide

/-! ## Fetch (vectors 2.1) -/

theorem test_fetch_big_endian :
    nextHas (step (withBytes State.reset 0x200 [0x12, 0x34])) (fun t => decide (t.pc = 0x234)) = true := by decide
theorem test_fetch_odd_pc :
    nextHas (step (withBytes (State.reset.setPc 0x203) 0x203 [0x60, 0x07])) (fun t => decide (t.reg 0 = 7 ∧ t.pc = 0x205)) = true := by
  decide
theorem test_fetch_past_memory :
    stopsWith (step (State.reset.setPc 0x1000)) (.outOfBounds .fetch 0x1000) = true ∧
    stopsWith (step (State.reset.setPc 0xFFF)) (.outOfBounds .fetch 0xFFF) = true := by decide
theorem test_step_unrecognized : stopsWith (run 0x8128 State.reset) (.unrecognizedOpcode 0x8128) = true := by decide

/-! ## Control flow (vectors 2.2) -/

theorem test_nop_at_last_word : nextHas (run 0x0000 (State.reset.setPc 0xFFE)) (fun t => decide (t.pc = 0x1000)) = true := by decide
theorem test_ret_pops : nextHas (run 0x00EE (stackStart 2)) (fun t => decide (t.sp = 1 ∧ t.pc = 0x456)) = true := by decide
theorem test_ret_underflow : stopsWith (run 0x00EE (stackStart 0)) (.outOfBounds .stackUnderflow 0) = true := by decide
theorem test_jp_odd : nextHas (run 0x1201 State.reset) (fun t => decide (t.pc = 0x201)) = true := by decide
theorem test_call_last_slot :
    nextHas (run 0x2ABC (stackStart 15)) (fun t => decide (t.stack[15] = 0x202 ∧ t.sp = 16 ∧ t.pc = 0xABC)) = true := by decide
theorem test_call_overflow : stopsWith (run 0x2ABC (stackStart 16)) (.outOfBounds .stackOverflow 16) = true := by decide
theorem test_seByte :
    nextHas (run 0x3342 (State.reset.setReg 3 0x42)) (fun t => decide (t.pc = 0x204)) = true ∧
    nextHas (run 0x3342 (State.reset.setReg 3 0x41)) (fun t => decide (t.pc = 0x202)) = true := by decide
theorem test_seByte_past_memory : nextHas (run 0x3000 (State.reset.setPc 0xFFE)) (fun t => decide (t.pc = 0x1002)) = true := by decide
theorem test_sneByte :
    nextHas (run 0x4342 (State.reset.setReg 3 0x42)) (fun t => decide (t.pc = 0x202)) = true ∧
    nextHas (run 0x4342 State.reset) (fun t => decide (t.pc = 0x204)) = true := by decide
theorem test_seReg :
    nextHas (run 0x5120 (aluStart 9 9 0)) (fun t => decide (t.pc = 0x204)) = true ∧
    nextHas (run 0x5110 (aluStart 9 8 0)) (fun t => decide (t.pc = 0x204)) = true := by decide
theorem test_sneReg :
    nextHas (run 0x9120 (aluStart 9 8 0)) (fun t => decide (t.pc = 0x204)) = true ∧
    nextHas (run 0x9110 (aluStart 9 8 0)) (fun t => decide (t.pc = 0x202)) = true := by decide
theorem test_jpV0_not_reduced : nextHas (run 0xBFFF (State.reset.setReg 0 0xFF)) (fun t => decide (t.pc = 0x10FE)) = true := by decide
theorem test_jpV0_uses_V0 : nextHas (run 0xB500 (State.reset.setReg 5 0x20)) (fun t => decide (t.pc = 0x500)) = true := by decide

/-! ## Display (vectors 2.3, S4) -/

theorem test_cls : nextHas (run 0x00E0 (withPixel State.reset 31 63)) (fun t => decide (t.fb = State.reset.fb)) = true := by decide

/-- S4: columns 60 to 63, then 0 to 3, of row 0. -/
theorem test_drw_wraps :
    nextHas (exec (.drw 0 1 1) (withBytes ((State.reset.setReg 0 60).setI 0x300) 0x300 [0xFF]))
      (fun t => decide (t.fb[0].toList = List.replicate 4 true ++ List.replicate 56 false ++ List.replicate 4 true ∧
        t.fb[1] = State.reset.fb[1] ∧ t.reg 15 = 0)) = true := by decide

/-- Column 0 is bit 7, at the last pixel, lit before: it goes dark and VF is 1. `DFF1` reads both coordinates from VF first. -/
theorem test_drw_collides :
    nextHas (exec (.drw 0 1 1) (withPixel (withBytes (((State.reset.setReg 0 63).setReg 1 31).setI 0x300) 0x300 [0x80]) 31 63))
      (fun t => decide (t.fb = State.reset.fb ∧ t.reg 15 = 1)) = true ∧
    nextHas (exec (.drw 15 15 1) (withBytes ((State.reset.setReg 15 10).setI 0x300) 0x300 [0x80]))
      (fun t => decide (t.fb = (withPixel State.reset 10 10).fb ∧ t.reg 15 = 0)) = true := by decide

/-! ## ALU (vectors 2.4) -/

theorem test_ldByte : nextHas (run 0x6155 (aluStart 0 0 0x55)) (fun t => decide (t.reg 1 = 0x55 ∧ t.reg 15 = 0x55)) = true := by decide
theorem test_addByte_no_flag :
    nextHas (run 0x71FF (aluStart 0x01 0 0x55)) (fun t => decide (t.reg 1 = 0x00 ∧ t.reg 15 = 0x55)) = true := by decide
theorem test_ldReg : nextHas (run 0x8F10 (aluStart 0x20 0 0x99)) (fun t => decide (t.reg 15 = 0x20)) = true := by decide
theorem test_orReg :
    nextHas (run 0x8121 (aluStart 0x0C 0x0A 0x55)) (fun t => decide (t.reg 1 = 0x0E ∧ t.reg 15 = 0x55)) = true := by decide
theorem test_andReg :
    nextHas (run 0x8122 (aluStart 0x0C 0x0A 0x55)) (fun t => decide (t.reg 1 = 0x08 ∧ t.reg 15 = 0x55)) = true := by decide
theorem test_xorReg :
    nextHas (run 0x8123 (aluStart 0x0C 0x0A 0x55)) (fun t => decide (t.reg 1 = 0x06 ∧ t.reg 15 = 0x55)) = true := by decide
theorem test_addReg_carry :
    nextHas (run 0x8124 (aluStart 0x7F 0x81 0x55)) (fun t => decide (t.reg 1 = 0x00 ∧ t.reg 15 = 1)) = true := by decide
theorem test_addReg_with_VF : nextHas (run 0x8F14 (aluStart 0x20 0 0xF0)) (fun t => decide (t.reg 15 = 0x01)) = true ∧
    nextHas (run 0x81F4 (aluStart 0xFF 0 0x01)) (fun t => decide (t.reg 1 = 0x00 ∧ t.reg 15 = 1)) = true := by decide
theorem test_sub_borrow :
    nextHas (run 0x8125 (aluStart 0x03 0x05 0x55)) (fun t => decide (t.reg 1 = 0xFE ∧ t.reg 15 = 0)) = true := by decide
theorem test_sub_to_VF : nextHas (run 0x8F15 (aluStart 0x20 0 0x10)) (fun t => decide (t.reg 15 = 0x00)) = true := by decide
theorem test_shr_ignores_y :
    nextHas (run 0x81F6 (aluStart 0x81 0 0x55)) (fun t => decide (t.reg 1 = 0x40 ∧ t.reg 15 = 1)) = true := by decide
theorem test_shr_of_VF : nextHas (run 0x8F06 (aluStart 0 0 0x02)) (fun t => decide (t.reg 15 = 0x00)) = true := by decide
theorem test_subn_no_borrow :
    nextHas (run 0x8127 (aluStart 0x03 0x05 0x55)) (fun t => decide (t.reg 1 = 0x02 ∧ t.reg 15 = 1)) = true := by decide
theorem test_subn_to_VF : nextHas (run 0x8F17 (aluStart 0x10 0 0x20)) (fun t => decide (t.reg 15 = 0x00)) = true := by decide
theorem test_shl_ignores_y :
    nextHas (run 0x813E (aluStart 0x81 0 0x55)) (fun t => decide (t.reg 1 = 0x02 ∧ t.reg 15 = 1)) = true := by decide
theorem test_shl_of_VF : nextHas (run 0x8F0E (aluStart 0 0 0x80)) (fun t => decide (t.reg 15 = 0x01)) = true := by decide

/-- `C100` gives 0 on any draw. -/
theorem test_rnd_zero_mask : ∃ t, exec (.rnd 1 0x00) (aluStart 0xAA 0 0x55) = .next t ∧ t.reg 1 = 0 ∧ t.reg 15 = 0x55 :=
  ⟨_, rfl, BitVec.and_zero, rfl⟩

/-! ## Address register and memory (vectors 2.5) -/

theorem test_ldI : nextHas (run 0xA2F0 State.reset) (fun t => decide (t.i = 0x2F0)) = true := by decide
theorem test_addI_largest_sum :
    nextHas (run 0xF01E ((State.reset.setI 0xFF00).setReg 0 0xFF)) (fun t => decide (t.i = 0xFFFF)) = true := by decide
theorem test_addI_overflow :
    stopsWith (run 0xF01E ((State.reset.setI 0xFFFF).setReg 0 1)) (.outOfBounds .addrOverflow 0x10000) = true := by decide
theorem test_ldF :
    nextHas (run 0xF329 (State.reset.setReg 3 0x0F)) (fun t => decide (t.i = 0x04B)) = true ∧
    nextHas (run 0xF329 (State.reset.setReg 3 0xFF)) (fun t => decide (t.i = 0x4FB)) = true := by decide
theorem test_ldB :
    nextHas (run 0xF233 ((State.reset.setI 0x300).setReg 2 128))
      (fun t => decide (t.mem.read 0x300 = 1 ∧ t.mem.read 0x301 = 2 ∧ t.mem.read 0x302 = 8)) = true := by decide
theorem test_ldB_past_memory : stopsWith (run 0xF233 (State.reset.setI 0xFFE)) (.outOfBounds .memWrite 0x1000) = true := by decide
theorem test_stRegs :
    nextHas (run 0xF255 ((((State.reset.setReg 0 1).setReg 1 2).setReg 2 3).setI 0x300))
      (fun t => decide (t.mem.read 0x300 = 1 ∧ t.mem.read 0x301 = 2 ∧ t.mem.read 0x302 = 3 ∧ t.mem.read 0x303 = 0 ∧ t.i = 0x300)) =
        true := by decide
/-- `F055` at `I` = 0 overwrites the atlas (R61); `FF55` past memory stops at the address past it. -/
theorem test_stRegs_atlas_and_end :
    nextHas (run 0xF055 (State.reset.setReg 0 0xAB)) (fun t => decide (t.mem.read 0 = 0xAB ∧ t.mem.read 1 = 0x90)) = true ∧
    stopsWith (run 0xFF55 (State.reset.setI 0xFF1)) (.outOfBounds .memWrite 0x1000) = true := by decide
theorem test_ldRegs :
    nextHas (run 0xF265 (withBytes ((State.reset.setReg 3 0x77).setI 0x300) 0x300 [1, 2, 3, 4]))
      (fun t => decide (t.reg 0 = 1 ∧ t.reg 1 = 2 ∧ t.reg 2 = 3 ∧ t.reg 3 = 0x77 ∧ t.i = 0x300)) = true := by decide
/-- VF is a register like the others (R185); it gets byte 3 of glyph 3 here, the atlas holding F0 10 F0 10 F0 from 0x00F. -/
theorem test_ldRegs_all :
    nextHas (run 0xFF65 (State.reset.setI 0x003)) (fun t => decide (t.reg 0 = 0x90 ∧ t.reg 1 = 0xF0 ∧ t.reg 15 = 0x10)) = true := by
  decide

/-! ## Keypad, timers and the host (vectors 2.6) -/

theorem test_skp :
    nextHas (run 0xE19E ((State.reset.setReg 1 5).setKey 5 true)) (fun t => decide (t.pc = 0x204)) = true ∧
    nextHas (run 0xE19E (State.reset.setReg 1 5)) (fun t => decide (t.pc = 0x202)) = true := by decide
theorem test_skp_past_keypad : stopsWith (run 0xE19E (State.reset.setReg 1 16)) (.outOfBounds .keyIndex 16) = true := by decide
theorem test_sknp :
    nextHas (run 0xE1A1 ((State.reset.setReg 1 5).setKey 5 true)) (fun t => decide (t.pc = 0x202)) = true ∧
    nextHas (run 0xE1A1 (State.reset.setReg 1 5)) (fun t => decide (t.pc = 0x204)) = true := by decide
theorem test_ldVxDt :
    nextHas (run 0xF507 (State.reset.setDt 0x3C)) (fun t => decide (t.reg 5 = 0x3C ∧ t.dt = 0x3C)) = true := by decide
theorem test_ldVxK_waits : nextHas (run 0xF30A State.reset) (fun t => decide (t.pc = 0x200 ∧ t.reg 3 = 0)) = true := by decide
/-- One key pressed is the key reported, whatever the free choice. -/
theorem test_ldVxK_reports : ∃ t, exec (.ldVxK 3) (State.reset.setKey 7 true) = .next t ∧ t.reg 3 = 7 ∧ t.pc = 0x200 := by
  have key : pickKey params.keyPick (Config.keyChoice 0) (State.reset.setKey 7 true).pressed = some 7 := by
    rw [show (State.reset.setKey 7 true).pressed = [7] by decide]
    show ([7] : List KeyIx)[Config.keyChoice 0 % 1]? = some 7
    rw [Nat.mod_one]; rfl
  refine ⟨((State.reset.setKey 7 true).setReg 3 7).drawn, ?_, by decide, by decide⟩
  show execLdVxK 3 (State.reset.setKey 7 true) = _
  unfold execLdVxK
  rw [show (State.reset.setKey 7 true).draws = 0 from rfl, key]
  rfl
theorem test_ldDtVx : nextHas (run 0xF015 (State.reset.setReg 0 0x3C)) (fun t => decide (t.dt = 0x3C)) = true := by decide
theorem test_ldStVx :
    nextHas (run 0xF018 (State.reset.setReg 0 1)) (fun t => decide (t.st = 1) && soundView t) = true ∧
    nextHas (run 0xF018 (State.reset.setReg 0 2)) (fun t => !soundView t) = true := by decide
theorem test_tick_timers :
    nextHas (hostState .tickTimers (State.reset.setDt 1)) (fun t => decide (t.dt = 0 ∧ t.st = 0)) = true ∧
    nextHas (hostState .tickTimers (State.reset.setSt 3)) (fun t => decide (t.dt = 0 ∧ t.st = 2)) = true := by decide
theorem test_keypress :
    nextHas (hostState (.keypress 3 true) State.reset) (fun t => decide (t.pressed = [3])) = true ∧
    stopsWith (hostState (.keypress 16 true) State.reset) (.outOfBounds .keyIndex 16) = true := by decide
theorem test_load :
    nextHas (hostState (.load [0x60, 0x05]) State.reset)
      (fun t => decide (t.mem.read 0x200 = 0x60 ∧ t.mem.read 0x201 = 0x05 ∧ t.pc = 0x200)) = true := by decide
theorem test_load_too_long (data : List Byte) (h : data.length = 3585) :
    hostState (.load data) State.reset = .fault (.outOfBounds .memWrite 0x1000) := by
  show hostLoad data State.reset = _
  rw [hostLoad, h, if_pos (by decide)]
  rfl
theorem test_faulted_is_refused : hostState .tick (State.reset.faulted (.unrecognizedOpcode 0)) = .refused .faultedState := rfl

/-! ## Witnesses: the hypotheses of each statement can be met, at the boundaries of its clauses -/

theorem witness_EncodeThenDecodeGivesInstruction : (Instr.drw 15 15 15).wellFormed = true ∧ (Instr.ldRegs 15).wellFormed = true := by
  decide

theorem witness_DecodeThenEncodeGivesWord :
    decodeWord 0x8AF6 = some (.shr 10) ∧ decodeWord 0x8AFE = some (.shl 10) ∧ decodeWord 0xDFFF = some (.drw 15 15 15) := by decide

/-- One word of each line (a) to (f) of R97, and their neighbours that are instructions. -/
theorem witness_ListedWordsAreUnrecognized :
    List.Forall listedUnrecognized [0x0001, 0x0FFF, 0x500F, 0x800F, 0x8008, 0x9001, 0xE000, 0xFFFF] ∧
    List.Forall (fun op => ¬ listedUnrecognized op) [0x0000, 0x00E0, 0x00EE, 0x5000, 0x800E, 0x8007, 0x9FF0, 0xEF9E, 0xF065] ∧
    (placeWord (State.reset.setPc 0xFFE) 0x0001).fault = none ∧
    (placeWord (State.reset.setPc 0xFFE) 0x0001).wordAt 0xFFE = 0x0001 := by
  refine ⟨?_, ?_, by decide, by decide⟩ <;> simp only [List.Forall, listedUnrecognized] <;> and_intros <;> decide

theorem witness_OpcodeRowsAreDisjoint :
    ∃ r, opcodeTable[0]? = some r ∧ r.accepts 0x0000 = true ∧ ∃ q, opcodeTable[34]? = some q ∧ q.accepts 0xFF65 = true :=
  ⟨_, rfl, by decide, _, rfl, by decide⟩

theorem witness_FetchReadsWordAndAdvances :
    (State.reset.setPc 0xFFE).pc.toNat + 1 < Config.memSize ∧ (State.reset.setPc 0xFFF).pc.toNat + 1 ≥ Config.memSize := by decide

theorem witness_StepRunsDecodedInstruction :
    (State.reset.faulted (.unrecognizedOpcode 0)).fault = some (.unrecognizedOpcode 0) ∧
    State.reset.fault = none ∧ State.reset.pc.toNat + 1 < Config.memSize ∧
    decodeWord (State.reset.wordAt State.reset.pc.toNat) = some .nop ∧
    decodeWord ((placeWord State.reset 0xFFFF).wordAt 0x200) = none ∧
    (State.reset.setPc 0xFFF).pc.toNat + 1 ≥ Config.memSize := by decide

theorem witness_UnfaultedStepIsNeverRefused : State.reset.fault = none := rfl

/-- Each kind of fault is reached by some step. -/
theorem witness_StepFaultsOnlyFromTheirCause :
    stopsWith (step (State.reset.setPc 0xFFF)) (.outOfBounds .fetch 0xFFF) = true ∧
    stopsWith (run 0x0001 State.reset) (.unrecognizedOpcode 0x0001) = true ∧
    stopsWith (run 0x2200 (stackStart 16)) (.outOfBounds .stackOverflow 16) = true ∧
    stopsWith (run 0x00EE State.reset) (.outOfBounds .stackUnderflow 0) = true ∧
    stopsWith (run 0xD002 (State.reset.setI 0xFFF)) (.outOfBounds .memRead 0x1000) = true ∧
    stopsWith (run 0xFF65 (State.reset.setI 0xFF1)) (.outOfBounds .memRead 0x1000) = true ∧
    stopsWith (run 0xF033 (State.reset.setI 0xFFE)) (.outOfBounds .memWrite 0x1000) = true ∧
    stopsWith (run 0xE1A1 (State.reset.setReg 1 0xFF)) (.outOfBounds .keyIndex 0xFF) = true ∧
    stopsWith (run 0xF01E ((State.reset.setI 0xFF01).setReg 0 0xFF)) (.outOfBounds .addrOverflow 0x10000) = true := by decide

theorem witness_NopOnlyMovesPc :
    State.reset.fault = none ∧ State.reset.pc.toNat + 1 < Config.memSize ∧ State.reset.wordAt State.reset.pc.toNat = 0x0000 := by decide

theorem witness_SelfJumpStaysAtRest : atRest 0x200 (placeWord State.reset 0x1200) ∧
    atRest 0xFFE (placeWord (State.reset.setPc 0xFFE) 0x1FFE) :=
  ⟨⟨by decide, by decide, by decide, by decide⟩, by decide, by decide, by decide, by decide⟩

theorem witness_CallPushesReturnAddress :
    (stackStart 16).sp.val = Config.stackDepth ∧ (stackStart 15).sp.val = (15 : Fin Config.stackDepth).val ∧
    (stackStart 0).sp.val = (0 : Fin Config.stackDepth).val := by decide

theorem witness_ReturnPopsPc :
    (stackStart 0).sp.val = 0 ∧ (stackStart 1).sp.val = (0 : Fin Config.stackDepth).val + 1 ∧
    (stackStart 16).sp.val = (15 : Fin Config.stackDepth).val + 1 := by decide

theorem witness_CallThenReturnComesBack :
    (stackStart 0).sp.val < Config.stackDepth ∧ (stackStart 15).sp.val < Config.stackDepth := by decide

theorem witness_SkippingStepAdvancesFour :
    (placeWord (State.reset.setPc 0xFFE) 0x3342).fault = none ∧
    (placeWord (State.reset.setPc 0xFFE) 0x3342).pc.toNat + 1 < Config.memSize ∧
    (placeWord (State.reset.setPc 0xFFE) 0x3342).wordAt (placeWord (State.reset.setPc 0xFFE) 0x3342).pc.toNat =
      encode (.seByte 3 0x42) := by decide

/-- No rows with `I` past memory, and fifteen rows that end at the last byte of memory; a covered and an uncovered pixel; a lit one. -/
theorem witness_DrawTogglesCoveredPixels :
    (Instr.drw 0 1 0).wellFormed = true ∧ (Instr.drw 0 1 15).wellFormed = true ∧
    (State.reset.setI 0xFF1).i.toNat + 15 ≤ Config.memSize ∧
    spriteCovers 0 1 1 State.reset 0 3 ∧ ¬ spriteCovers 0 1 1 State.reset 1 0 ∧ pixel (withPixel State.reset 0 3).fb 0 3 = true := by
  refine ⟨by decide, by decide, by decide, ⟨0, 3, by decide, by decide, by decide, by decide, by decide⟩, ?_, by decide⟩
  rintro ⟨row, col, h, -, hr, -⟩
  obtain rfl : row = 0 := by omega
  exact absurd hr (by decide)

theorem witness_DrawFaultsAtFirstRowPastMemory :
    (1 : Nat) < 2 ∧ (State.reset.setI 0xFFF).i.toNat + 1 ≥ Config.memSize ∧
    (∀ k, k < 1 → (State.reset.setI 0xFFF).i.toNat + k < Config.memSize) ∧
    (0 : Nat) < 1 ∧ (State.reset.setI 0x1000).i.toNat + 0 ≥ Config.memSize := by
  refine ⟨by decide, by decide, fun k h => ?_, by decide, by decide⟩
  obtain rfl : k = 0 := by omega
  decide

/-- Glyph 0, one row, drawn twice from the dark display. -/
theorem witness_DrawTwiceRestoresDisplay :
    (Instr.drw 0 1 1).wellFormed = true ∧
    ∃ t u : State, exec (.drw 0 1 1) State.reset = .next t ∧ t.reg 0 = State.reset.reg 0 ∧ t.reg 1 = State.reset.reg 1 ∧
      exec (.drw 0 1 1) t = .next u ∧ pixel State.reset.fb 0 3 = false ∧ pixel t.fb 0 3 = true :=
  ⟨by decide, _, _, rfl, by decide, by decide, rfl, by decide, by decide⟩

theorem witness_AddAddressIsExactOrOverflows :
    ((State.reset.setI 0xFF00).setReg 0 0xFF).i.toNat + (((State.reset.setI 0xFF00).setReg 0 0xFF).reg 0).toNat ≤ 0xFFFF ∧
    ((State.reset.setI 0xFF01).setReg 0 0xFF).i.toNat + (((State.reset.setI 0xFF01).setReg 0 0xFF).reg 0).toNat > 0xFFFF := by decide

theorem witness_AddressOverflowFaults :
    ((State.reset.setI 0xFFFF).setReg 0 1).i.toNat + (((State.reset.setI 0xFFFF).setReg 0 1).reg 0).toNat > 0xFFFF := by decide

theorem witness_DecimalStoreWritesThreeDigits :
    (State.reset.setI 0xFFD).effAddr 2 < Config.memSize ∧
    (2 ≤ 2 ∧ (State.reset.setI 0xFFE).effAddr 2 ≥ Config.memSize ∧ ∀ j, j < 2 → (State.reset.setI 0xFFE).effAddr j < Config.memSize) ∧
    (0 ≤ 2 ∧ (State.reset.setI 0x1000).effAddr 0 ≥ Config.memSize) := by decide

theorem witness_RegisterStoreWritesV0ToVx :
    (State.reset.setI 0xFF0).effAddr 15 < Config.memSize ∧
    (15 ≤ (15 : RegIx).val ∧ (State.reset.setI 0xFF1).effAddr 15 ≥ Config.memSize ∧
      ∀ j, j < 15 → (State.reset.setI 0xFF1).effAddr j < Config.memSize) ∧
    (0 ≤ (0 : RegIx).val ∧ (State.reset.setI 0xFFFF).effAddr 0 ≥ Config.memSize) := by decide

theorem witness_RegisterLoadReadsV0ToVx :
    (State.reset.setI 0xFFF).effAddr 0 < Config.memSize ∧
    (1 ≤ (1 : RegIx).val ∧ (State.reset.setI 0xFFF).effAddr 1 ≥ Config.memSize ∧
      ∀ j, j < 1 → (State.reset.setI 0xFFF).effAddr j < Config.memSize) := by decide

theorem witness_StoredRegistersLoadBack :
    ∃ t u : State, exec (.stRegs 15) ((State.reset.setI 0x300).setReg 15 9) = .next t ∧ u.mem = t.mem ∧
      u.i = ((State.reset.setI 0x300).setReg 15 9).i ∧ u.reg 15 = 0 :=
  ⟨_, (after (exec (.stRegs 15) ((State.reset.setI 0x300).setReg 15 9)) State.reset).setReg 15 0, rfl, rfl, rfl, by decide⟩

theorem witness_StoredCodeIsFetched :
    ∃ t u : State, exec (.stRegs 15) (State.reset.setI 0xFF0) = .next t ∧ (15 : RegIx).val = (14 : RegIx).val + 1 ∧ (15 : RegIx) ≤ 15 ∧
      u.mem = t.mem ∧ u.pc.toNat = (State.reset.setI 0xFF0).effAddr 14 :=
  ⟨_, (after (exec (.stRegs 15) (State.reset.setI 0xFF0)) State.reset).setPc 0xFFE, rfl, rfl, by decide, rfl, by decide⟩

theorem witness_KeySkipsReadTheKey :
    ((State.reset.setReg 1 15).reg 1).toNat = (15 : KeyIx).val ∧ ((State.reset.setReg 1 16).reg 1).toNat ≥ Config.numKeys ∧
    (State.reset.setKey 15 true).key[(15 : KeyIx)] = true := by decide

theorem witness_KeyWaitRewindsOrReportsKey :
    (∀ k : KeyIx, State.reset.key[k] = false) ∧ (∃ k : KeyIx, (State.reset.setKey 15 true).key[k] = true) ∧
    pickKey .lowest 5 ((State.reset.setKey 9 true).setKey 2 true).pressed = some 2 := by decide

theorem witness_KeyWaitStepIsIdle :
    (placeWord (State.reset.setPc 0xFFE) 0xF30A).fault = none ∧
    (placeWord (State.reset.setPc 0xFFE) 0xF30A).pc.toNat + 1 < Config.memSize ∧
    (placeWord (State.reset.setPc 0xFFE) 0xF30A).wordAt (placeWord (State.reset.setPc 0xFFE) 0xF30A).pc.toNat = encode (.ldVxK 3) ∧
    ∀ k : KeyIx, (placeWord (State.reset.setPc 0xFFE) 0xF30A).key[k] = false := by decide

theorem witness_TimerTransfersCopyBytes : (State.reset.setReg 0 1).fault = none ∧ ((State.reset.setReg 0 1).reg 0).toNat = 1 := by decide

/-- An instruction that completes, and a register outside its footprint. -/
theorem witness_InstructionsWriteOnlyTheirRegisters :
    ∃ t, exec (.addReg 1 2) State.reset = .next t ∧ (2 : RegIx) ∉ (footprint (.addReg 1 2)).regs := ⟨_, rfl, by decide⟩

/-- The byte below and the byte above what Fx55 stores. -/
theorem witness_InstructionsStoreOnlyTheirBytes :
    ∃ t, exec (.stRegs 2) (State.reset.setI 0x300) = .next t ∧
      ∀ a ∈ [0x2FF, 0x303], ¬ ((State.reset.setI 0x300).effAddr 0 ≤ a ∧
        a < (State.reset.setI 0x300).effAddr 0 + (footprint (.stRegs 2)).stored) := ⟨_, rfl, by decide⟩

theorem witness_InstructionsKeepOtherElements :
    ∃ t, exec .nop State.reset = .next t ∧ (footprint .nop).pc = false ∧ (footprint .nop).addr = false ∧
      (footprint .nop).slots = false ∧ (footprint .nop).sp = false ∧ (footprint .nop).display = false ∧ (footprint .nop).dt = false ∧
      (footprint .nop).st = false ∧ (footprint .nop).draws = false := ⟨_, rfl, by decide⟩

theorem witness_StepKeepsInvariant : State.reset.inv ∧ ∃ t, step State.reset = .next t :=
  ⟨⟨by decide, by decide, by decide⟩, _, rfl⟩

/-- A completed operation and a faulting one, after which the machine is reachable and faulted. -/
theorem witness_ReachableStatesMeetSystemInvariant :
    State.reset.sysInv ∧ systemStep .tick State.reset (State.reset.setPc 0x202) ∧
    Reachable (State.reset.faulted (.outOfBounds .keyIndex 16)) :=
  have fault : hostState (.keypress 16 true) State.reset = .fault (.outOfBounds .keyIndex 16) := rfl
  ⟨⟨by decide, fun _ => ⟨by decide, by decide, by decide⟩⟩, .inl rfl,
    .call (.keypress 16 true) _ _ .new (.inr ⟨_, State.reset, fault, by decide, rfl⟩)⟩

theorem witness_TimerTickCountsDownToZero : (State.reset.setDt 1).fault = none ∧ (State.reset.setDt 0xFF).fault = none := by decide

theorem witness_QueriesAnswerAndChangeNothing : (State.reset.setSt 1).fault = none ∧ (State.reset.setSt 2).fault = none := by decide

theorem witness_KeypressSetsOneKey : State.reset.fault = none ∧ (16 : Nat) ≥ Config.numKeys := by decide

theorem witness_LoadCopiesImage :
    State.reset.fault = none ∧ (List.replicate 3584 (0xAA : Byte)).length ≤ Config.maxImage ∧
    (List.replicate 3585 (0xAA : Byte)).length > Config.maxImage := by
  rw [List.length_replicate, List.length_replicate]
  decide

theorem witness_FaultedMachineOnlyResets :
    ∃ (s t : State) (f : Fault), s.fault = some f ∧ systemStep .reset s t ∧ t.fault = none :=
  ⟨State.reset.faulted (.unrecognizedOpcode 1), State.reset, _, rfl, .inl rfl, rfl⟩
end

/-! The words that no row of the opcode table matches (spec/30_encoding.md R97): each of the table's masks keeps nibbles of the word,
which are quotients and remainders of its value, so the table and the list (a) to (f) are compared as facts of numbers, one leading
nibble at a time. -/

namespace Sys2Proof

/-! ## What the masks of R95 keep -/

/-- Two masks without a common bit keep parts of a word whose values add up. -/
theorem toNat_and_or_of_disjoint {a b : Word} (op : Word) (h : a &&& b = 0) :
    (op &&& (a ||| b)).toNat = (op &&& a).toNat + (op &&& b).toNat := by
  have disjoint : (op &&& a) &&& (op &&& b) = 0#16 := by
    rw [BitVec.and_comm op b, BitVec.and_assoc, ← BitVec.and_assoc a, h]
    simp
  rw [BitVec.and_or_distrib_left, ← BitVec.add_eq_or_of_and_eq_zero _ _ disjoint, BitVec.toNat_add_of_and_eq_zero disjoint]

theorem and_FFFF (op : Word) : op &&& 0xFFFF = op := BitVec.and_allOnes

theorem toNat_and_000F (op : Word) : (op &&& 0x000F).toNat = op.toNat % 16 :=
  Nat.and_two_pow_sub_one_eq_mod op.toNat 4

theorem toNat_and_00FF (op : Word) : (op &&& 0x00FF).toNat = op.toNat % 256 :=
  Nat.and_two_pow_sub_one_eq_mod op.toNat 8

theorem toNat_and_0FFF (op : Word) : (op &&& 0x0FFF).toNat = op.toNat % 4096 :=
  Nat.and_two_pow_sub_one_eq_mod op.toNat 12

theorem toNat_and_F000 (op : Word) : (op &&& 0xF000).toNat = op.toNat / 4096 * 4096 := by
  have split : (op &&& 0xFFFF).toNat = (op &&& 0xF000).toNat + (op &&& 0x0FFF).toNat :=
    toNat_and_or_of_disjoint (a := 0xF000) (b := 0x0FFF) op (by decide)
  rw [and_FFFF, toNat_and_0FFF] at split
  omega

theorem toNat_and_F00F (op : Word) : (op &&& 0xF00F).toNat = op.toNat / 4096 * 4096 + op.toNat % 16 := by
  rw [← toNat_and_F000, ← toNat_and_000F]
  exact toNat_and_or_of_disjoint (a := 0xF000) (b := 0x000F) op (by decide)

theorem toNat_and_F0FF (op : Word) : (op &&& 0xF0FF).toNat = op.toNat / 4096 * 4096 + op.toNat % 256 := by
  rw [← toNat_and_F000, ← toNat_and_00FF]
  exact toNat_and_or_of_disjoint (a := 0xF000) (b := 0x00FF) op (by decide)

/-! ## When a row of each mask refuses a word (R96) -/

theorem OpcodeRow.accepts_FFFF_eq_false {p : Word} {build : Word → Instr} {op : Word} :
    accepts ⟨p, 0xFFFF, build⟩ op = false ↔ op.toNat ≠ p.toNat := by
  rw [OpcodeRow.accepts, decide_eq_false_iff_not, and_FFFF, ← BitVec.toNat_inj]

theorem OpcodeRow.accepts_F000_eq_false {p : Word} {build : Word → Instr} {op : Word} (hp : p &&& 0xF000 = p) :
    accepts ⟨p, 0xF000, build⟩ op = false ↔ op.toNat / 4096 ≠ p.toNat / 4096 := by
  rw [OpcodeRow.accepts, decide_eq_false_iff_not, ← BitVec.toNat_inj, ← hp, toNat_and_F000, toNat_and_F000]
  omega

theorem OpcodeRow.accepts_F00F_eq_false {p : Word} {build : Word → Instr} {op : Word} (hp : p &&& 0xF00F = p) :
    accepts ⟨p, 0xF00F, build⟩ op = false ↔ (op.toNat / 4096 = p.toNat / 4096 → op.toNat % 16 ≠ p.toNat % 16) := by
  rw [OpcodeRow.accepts, decide_eq_false_iff_not, ← BitVec.toNat_inj, ← hp, toNat_and_F00F, toNat_and_F00F]
  omega

theorem OpcodeRow.accepts_F0FF_eq_false {p : Word} {build : Word → Instr} {op : Word} (hp : p &&& 0xF0FF = p) :
    accepts ⟨p, 0xF0FF, build⟩ op = false ↔ (op.toNat / 4096 = p.toNat / 4096 → op.toNat % 256 ≠ p.toNat % 256) := by
  rw [OpcodeRow.accepts, decide_eq_false_iff_not, ← BitVec.toNat_inj, ← hp, toNat_and_F0FF, toNat_and_F0FF]
  omega

end Sys2Proof

namespace Sys2Proof.Machine

/-! ## The decoder and the list -/

/-- The table has no row for exactly the words of R97: for each leading nibble, the rows that begin with it and the clause of the list
that names it say opposite things of the remaining nibbles. -/
theorem decodeWord_eq_none_iff_listedUnrecognized (op : Word) : decodeWord op = none ↔ listedUnrecognized op := by
  have leading : op.toNat / 4096 < 16 := by omega
  rw [decodeWord_eq_none]
  -- the table, row by row, and the list, both as facts of the leading nibble and of the nibbles below it
  simp (disch := decide) only [opcodeTable, opcodeRowsLow, opcodeRowsAlu, opcodeRowsHigh, List.cons_append, List.nil_append,
    List.forall_mem_cons, OpcodeRow.accepts_FFFF_eq_false, OpcodeRow.accepts_F000_eq_false, OpcodeRow.accepts_F00F_eq_false,
    OpcodeRow.accepts_F0FF_eq_false, BitVec.reduceToNat, Nat.reduceDiv, Nat.reduceMod]
  simp only [listedUnrecognized, List.mem_cons, List.not_mem_nil, false_imp_iff, implies_true, and_true, or_false]
  interval_cases nibble : op.toNat / 4096 <;> simp <;> omega

/-! ## The step (R94) -/

/-- A step that fetches a word without an instruction ends in the fault `UnrecognizedOpcode` of it. -/
theorem step_of_decodeWord_eq_none {s : State} (hf : s.fault = none) (hp : s.pc.toNat + 1 < Config.memSize)
    (hd : decodeWord (s.wordAt s.pc.toNat) = none) : step s = .fault (.unrecognizedOpcode (s.wordAt s.pc.toNat)) := by
  rw [State.wordAt] at hd ⊢
  rw [step, hf, fetch_of_lt hp]
  simp only [hd, raise]

/-- Settles O3: the decoder's refusals are the words of R97, and a step passes a refusal on as its fault. -/
theorem listedWordsAreUnrecognized : Obligations.ListedWordsAreUnrecognized :=
  ⟨decodeWord_eq_none_iff_listedUnrecognized, fun _ hf hp listed =>
    step_of_decodeWord_eq_none hf hp ((decodeWord_eq_none_iff_listedUnrecognized _).mpr listed)⟩

end Sys2Proof.Machine

/-! Control flow (spec/40_control_flow.md): NOP, the jump, and the skips that compare a register with a byte or with a register. -/

namespace Sys2Proof.Machine

/-! ## The step (R94) -/

/-- A step that fetches a word with an instruction is that instruction's meaning, on the state whose `pc` the fetch has advanced. -/
theorem step_of_decodeWord_eq_some {s : State} {i : Instr} (hf : s.fault = none) (hp : s.pc.toNat + 1 < Config.memSize)
    (hd : decodeWord (s.wordAt s.pc.toNat) = some i) : step s = exec i s.advance := by
  rw [State.wordAt] at hd
  rw [step, hf, fetch_of_lt hp]
  simp only [hd]

/-! ## The meanings, through the operations of the state -/

theorem exec_nop (s : State) : exec .nop s = .next s := rfl

theorem exec_jp (nnn : Addr12) (s : State) : exec (.jp nnn) s = .next (s.setPc (zextAddr nnn)) := rfl

theorem exec_seByte (x : RegIx) (kk : Byte) (s : State) :
    exec (.seByte x kk) s = .next (s.skipIf (decide (s.reg x = kk))) := rfl

theorem exec_sneByte (x : RegIx) (kk : Byte) (s : State) :
    exec (.sneByte x kk) s = .next (s.skipIf (decide (s.reg x ≠ kk))) := rfl

theorem exec_seReg (x y : RegIx) (s : State) :
    exec (.seReg x y) s = .next (s.skipIf (decide (s.reg x = s.reg y))) := rfl

theorem exec_sneReg (x y : RegIx) (s : State) :
    exec (.sneReg x y) s = .next (s.skipIf (decide (s.reg x ≠ s.reg y))) := rfl

/-! ## The skip on a comparison (R129) -/

/-- A skip on a condition moves `pc` by 2 where the condition holds, and changes nothing else. -/
theorem State.skipIf_decide (s : State) (p : Prop) [Decidable p] :
    s.skipIf (decide p) = { s with pc := if p then s.pc + 2 else s.pc } := by
  rw [State.skipIf_eq, State.setPc]
  simp only [decide_eq_true_eq]

/-- A skip on the negation of a condition moves `pc` by 2 where the condition fails, and changes nothing else. -/
theorem State.skipIf_decide_not (s : State) (p : Prop) [Decidable p] :
    s.skipIf (decide ¬ p) = { s with pc := if p then s.pc else s.pc + 2 } := by
  rw [State.skipIf_decide, ite_not]

/-! ## The obligations -/

/-- Settles O11: the word 0000 decodes to NOP, which leaves the advanced state of the fetch as it is. -/
theorem nopOnlyMovesPc : Obligations.NopOnlyMovesPc := by
  refine fun s => ⟨exec_nop s, fun hf hp hw => ?_⟩
  have decoded : decodeWord (s.wordAt s.pc.toNat) = some .nop := by
    rw [hw]
    rfl
  calc step s = exec .nop s.advance := step_of_decodeWord_eq_some hf hp decoded
    _ = .next { s with pc := s.pc + 2 } := exec_nop s.advance

/-- Settles O12: zero-extension keeps the value of the 12-bit target, whatever its parity. -/
theorem jumpSetsPc : Obligations.JumpSetsPc :=
  fun nnn s => ⟨s.setPc (zextAddr nnn), exec_jp nnn s, toNat_zextAddr nnn, rfl⟩

/-- Settles O18: 3xkk skips on the comparison, 4xkk on its negation. -/
theorem byteSkipsCompareRegister : Obligations.ByteSkipsCompareRegister := by
  intro x kk s
  constructor
  · rw [exec_seByte, State.skipIf_decide]
  · rw [exec_sneByte, State.skipIf_decide_not]

/-- Settles O19: 5xy0 skips on the comparison, 9xy0 on its negation. -/
theorem registerSkipsCompareRegisters : Obligations.RegisterSkipsCompareRegisters := by
  intro x y s
  constructor
  · rw [exec_seReg, State.skipIf_decide]
  · rw [exec_sneReg, State.skipIf_decide_not]

end Sys2Proof.Machine

/-! The display (spec/41_display.md): the screen clear. -/

namespace Sys2Proof.Machine

theorem exec_cls (s : State) : exec .cls s = .next { s with fb := darkScreen } := rfl

/-- Settles O21: the clear puts the dark screen in place of the framebuffer, and putting the old one back restores the state. -/
theorem clearDarkensEveryPixel : Obligations.ClearDarkensEveryPixel :=
  fun s => ⟨{ s with fb := darkScreen }, exec_cls s, pixel_darkScreen, rfl⟩

end Sys2Proof.Machine

/-! The ALU (spec/42_alu.md): the byte load, the byte add and the copy, which write Vx alone, and the five instructions that write a
result and a flag. -/

namespace Sys2Proof.Machine

/-! ## The meanings, through the operations of the state -/

theorem exec_ldByte (x : RegIx) (kk : Byte) (s : State) : exec (.ldByte x kk) s = .next (s.setReg x kk) := rfl

theorem exec_addByte (x : RegIx) (kk : Byte) (s : State) :
    exec (.addByte x kk) s = .next (s.setReg x (addResult (s.reg x) kk)) := rfl

theorem exec_ldReg (x y : RegIx) (s : State) : exec (.ldReg x y) s = .next (s.setReg x (s.reg y)) := rfl

theorem exec_addReg (x y : RegIx) (s : State) :
    exec (.addReg x y) s =
      .next (writeFlagged params.vfOrder x (addResult (s.reg x) (s.reg y)) (addFlag (s.reg x) (s.reg y)) s) := rfl

theorem exec_sub (x y : RegIx) (s : State) :
    exec (.sub x y) s =
      .next (writeFlagged params.vfOrder x (subResult (s.reg x) (s.reg y)) (subFlag (s.reg x) (s.reg y)) s) := rfl

theorem exec_subn (x y : RegIx) (s : State) :
    exec (.subn x y) s =
      .next (writeFlagged params.vfOrder x (subResult (s.reg y) (s.reg x)) (subFlag (s.reg y) (s.reg x)) s) := rfl

theorem exec_shr (x : RegIx) (s : State) :
    exec (.shr x) s = .next (writeFlagged params.vfOrder x (shrResult (s.reg x)) (shrFlag (s.reg x)) s) := rfl

theorem exec_shl (x : RegIx) (s : State) :
    exec (.shl x) s = .next (writeFlagged params.vfOrder x (shlResult (s.reg x)) (shlFlag (s.reg x)) s) := rfl

/-! ## One register written, and a register with a flag -/

/-- Putting the old registers back undoes a register write. -/
theorem State.setReg_restore_v (s : State) (r : RegIx) (b : RegVal) : { s.setReg r b with v := s.v } = s := rfl

/-- The registers as numbers after a register write. -/
theorem State.toNat_reg_setReg (s : State) (q r : RegIx) (b : RegVal) :
    ((s.setReg r b).reg q).toNat = if q = r then b.toNat else (s.reg q).toNat := by
  rw [State.reg_setReg, apply_ite BitVec.toNat]

/-- The two writes of R150 meet the statements' `flaggedWrite`, whichever of them `VF_ORDER` puts last. -/
theorem flaggedWrite_writeFlagged {x : RegIx} {res flag : RegVal} {m n : Nat} {s : State} (hres : res.toNat = m)
    (hflag : flag.toNat = n) : flaggedWrite x m n s (writeFlagged params.vfOrder x res flag s) := by
  subst hres hflag
  constructor
  · intro r
    rw [writeFlagged_reg]
    by_cases hr : r = Config.flagReg
    · by_cases hx : x = Config.flagReg
      · -- both writes go to `r`, and `VF_ORDER` decides
        simp only [hr, hx, if_true, true_and, ne_eq, not_true_eq_false, false_or, apply_ite BitVec.toNat]
      · simp [hr, hx, Ne.symm hx]
    · by_cases hrx : r = x
      · subst hrx
        simp [hr]
      · simp [hr, hrx]
  · obtain ⟨w, hw⟩ := writeFlagged_frame params.vfOrder x res flag s
    rw [hw]

/-! ## The obligations -/

/-- Settles O25: each writes Vx alone; the byte add's value is the sum modulo 256. -/
theorem byteLoadAndAddWriteOnlyVx : Obligations.ByteLoadAndAddWriteOnlyVx := by
  intro x kk s
  constructor
  · exact ⟨_, exec_ldByte x kk s, fun r => s.reg_setReg r x kk, s.setReg_restore_v x kk⟩
  · refine ⟨_, exec_addByte x kk s, fun r => ?_, s.setReg_restore_v x _⟩
    rw [State.toNat_reg_setReg, toNat_addResult]

/-- Settles O26: the copy is one register write, of Vx with the value of Vy. -/
theorem registerCopyWritesOnlyVx : Obligations.RegisterCopyWritesOnlyVx :=
  fun x y s => ⟨_, exec_ldReg x y s, fun r => s.reg_setReg r x (s.reg y), s.setReg_restore_v x _⟩

/-- Settles O28: the two writes of R150, with the sum and the carry as numbers. -/
theorem addWritesSumAndCarry : Obligations.AddWritesSumAndCarry :=
  fun x y s => ⟨_, exec_addReg x y s, flaggedWrite_writeFlagged (toNat_addResult _ _) (toNat_addFlag _ _)⟩

/-- Settles O29: the two writes of R150, with the difference Vx - Vy and its inverted borrow as numbers. -/
theorem subWritesDifferenceAndNotBorrow : Obligations.SubWritesDifferenceAndNotBorrow :=
  fun x y s => ⟨_, exec_sub x y s, flaggedWrite_writeFlagged (toNat_subResult _ _) (toNat_subFlag _ _)⟩

/-- Settles O30: as O29 with the operands exchanged. -/
theorem subnWritesReverseDifferenceAndNotBorrow : Obligations.SubnWritesReverseDifferenceAndNotBorrow :=
  fun x y s => ⟨_, exec_subn x y s, flaggedWrite_writeFlagged (toNat_subResult _ _) (toNat_subFlag _ _)⟩

/-- Settles O31: the two writes of R150, with the shifted value and the bit shifted out of the old Vx as numbers. -/
theorem shiftsWriteResultAndBitShiftedOut : Obligations.ShiftsWriteResultAndBitShiftedOut :=
  fun x s =>
    ⟨⟨_, exec_shr x s, flaggedWrite_writeFlagged (toNat_shrResult _) (toNat_shrFlag _)⟩,
      ⟨_, exec_shl x s, flaggedWrite_writeFlagged (toNat_shlResult _) (toNat_shlFlag _)⟩⟩

end Sys2Proof.Machine

/-! The address register (spec/43_index_memory.md): the address load and the address addition. -/

namespace Sys2Proof.Machine

theorem exec_ldI (nnn : Addr12) (s : State) : exec (.ldI nnn) s = .next (s.setI (zextAddr nnn)) := rfl

theorem exec_addI (x : RegIx) (s : State) : exec (.addI x) s = finish (addAddress params.iOverflow (s.reg x) s) := rfl

/-- Putting the old address back undoes a write of `I`. -/
theorem State.setI_restore_i (s : State) (a : AddrVal) : { s.setI a with i := s.i } = s := rfl

/-- A sum that fits 16 bits is written to `I`, whatever `I_OVERFLOW` says. -/
theorem exec_addI_of_le {x : RegIx} {s : State} (h : s.i.toNat + (s.reg x).toNat ≤ 0xFFFF) :
    exec (.addI x) s = .next (s.setI (BitVec.ofNat Config.iWidth (s.i.toNat + (s.reg x).toNat))) := by
  rw [exec_addI, addAddress_eq, if_pos (.inl h), finish]

/-! ## The obligations -/

/-- Settles O34: zero-extension keeps the value of the 12-bit address. -/
theorem loadAddressSetsI : Obligations.LoadAddressSetsI :=
  fun nnn s => ⟨_, exec_ldI nnn s, toNat_zextAddr nnn, s.setI_restore_i _⟩

/-- Settles O35: a sum within 16 bits is its own remainder modulo 65536; past them each value of `I_OVERFLOW` has its outcome. -/
theorem addAddressIsExactOrOverflows : Obligations.AddAddressIsExactOrOverflows := by
  refine fun x s => ⟨fun fits => ?_, fun exceeds => ?_⟩
  · have exact_sum : (BitVec.ofNat Config.iWidth (s.i.toNat + (s.reg x).toNat)).toNat = s.i.toNat + (s.reg x).toNat :=
      (BitVec.toNat_ofNat _ _).trans (Nat.mod_eq_of_lt (Nat.lt_succ_of_le fits))
    exact ⟨_, exec_addI_of_le fits, exact_sum, s.setI_restore_i _⟩
  · rw [exec_addI, addAddress_eq]
    generalize params.iOverflow = how
    cases how with
    | fault =>
      rw [if_neg (by simpa using exceeds)]
      rfl
    | wrap =>
      rw [if_pos (.inr rfl)]
      rfl

end Sys2Proof.Machine

/-! The timers (spec/44_keypad_timers.md): the transfers between a register and a timer, and the sound query. -/

namespace Sys2Proof.Machine

/-! ## The meanings, through the operations of the state -/

theorem exec_ldVxDt (x : RegIx) (s : State) : exec (.ldVxDt x) s = .next (s.setReg x s.dt) := rfl

theorem exec_ldDtVx (x : RegIx) (s : State) : exec (.ldDtVx x) s = .next (s.setDt (s.reg x)) := rfl

theorem exec_ldStVx (x : RegIx) (s : State) : exec (.ldStVx x) s = .next (s.setSt (s.reg x)) := rfl

/-! ## The sound query (R251) -/

theorem soundView_of_fault_eq_none {s : State} (hf : s.fault = none) : soundView s = decide (s.st = 1) := by
  simp only [soundView, hf]

theorem soundView_eq_true_iff {s : State} (hf : s.fault = none) : soundView s = true ↔ s.st.toNat = 1 := by
  rw [soundView_of_fault_eq_none hf, decide_eq_true_iff, ← BitVec.toNat_inj]
  rfl

/-! ## The obligation -/

/-- Settles O46: each transfer is one write, of Vx or of a timer; the write of `ST` leaves `fault` as it was, so the query after it
reads the new timer. -/
theorem timerTransfersCopyBytes : Obligations.TimerTransfersCopyBytes := by
  intro x s
  refine ⟨⟨_, exec_ldVxDt x s, fun r => s.reg_setReg r x s.dt, s.setReg_restore_v x s.dt⟩, exec_ldDtVx x s,
    s.setSt (s.reg x), exec_ldStVx x s, rfl, fun hf => ?_⟩
  have kept : (s.setSt (s.reg x)).fault = none := (s.setSt_fault _).trans hf
  rw [soundView_eq_true_iff kept, State.setSt_st]

end Sys2Proof.Machine

/-! The host's operations in a state without a fault (spec/60_exceptions.md): the timer tick and the two queries. -/

namespace Sys2Proof.Machine

/-! ## The timer tick (R250) -/

theorem hostCall_tickTimers {s : State} (hf : s.fault = none) : hostCall .tickTimers s = .next (hostTickTimers s, .none) := by
  have ticked : hostState .tickTimers s = .next (hostTickTimers s) := by rw [hostState, unlessFaulted_of_none hf]
  exact hostCall_eq_next.mpr ⟨ticked, rfl⟩

/-- Putting the old timers back undoes a timer tick. -/
theorem hostTickTimers_restore_dt_st (s : State) : { hostTickTimers s with dt := s.dt, st := s.st } = s := rfl

/-! ## The queries (R251, R253) -/

theorem afterQuery_of_fault_eq_none {s : State} (hf : s.fault = none) : afterQuery s = s := by
  simp only [afterQuery, hf]

theorem displayView_of_fault_eq_none {s : State} (hf : s.fault = none) : displayView s = s.fb := by
  simp only [displayView, hf]

theorem soundView_eq_decide_toNat {s : State} (hf : s.fault = none) : soundView s = decide (s.st.toNat = 1) := by
  rw [Bool.eq_iff_iff, soundView_eq_true_iff hf, decide_eq_true_iff]

theorem hostCall_shouldPlaySound (s : State) : hostCall .shouldPlaySound s = .next (afterQuery s, .sound (soundView s)) := rfl

theorem hostCall_getDisplay (s : State) : hostCall .getDisplay s = .next (afterQuery s, .display (displayView s)) := rfl

/-! ## The obligations -/

/-- Settles O55: the tick is one countdown of each timer, and a countdown is the truncated subtraction of 1. -/
theorem timerTickCountsDownToZero : Obligations.TimerTickCountsDownToZero :=
  fun s hf => ⟨_, hostCall_tickTimers hf, toNat_countDown s.dt, toNat_countDown s.st, hostTickTimers_restore_dt_st s⟩

/-- Settles O56: without a fault a query draws no free value, so it answers from the state and leaves it. -/
theorem queriesAnswerAndChangeNothing : Obligations.QueriesAnswerAndChangeNothing := by
  refine fun s hf => ⟨?_, ?_⟩
  · rw [hostCall_shouldPlaySound, afterQuery_of_fault_eq_none hf, soundView_eq_decide_toNat hf]
  · rw [hostCall_getDisplay, afterQuery_of_fault_eq_none hf, displayView_of_fault_eq_none hf]

end Sys2Proof.Machine

/-! Encoding (spec/30_encoding.md): the decoder reads the encoder's word back, the encoder writes a decoded word back, and the rows of
the opcode table are disjoint. Both directions are facts about what a mask keeps of a word: a field is what its place keeps, and a row's
fixed bits with the places of its fields cover the word. -/

namespace Sys2Proof

/-! ## A field is what its place keeps of a word (R10) -/

/-- Four bits of a word, put back in their place as a number. -/
theorem ofNat_toFin_extract (op : Word) (start : Nat) :
    BitVec.ofNat 16 (op.extractLsb' start 4).toFin.val = (op.extractLsb' start 4).setWidth 16 :=
  BitVec.ofNat_toNat 16 _

theorem placeX_fieldX (op : Word) : placeX (fieldX op) = op &&& 0x0F00 := by
  rw [placeX, fieldX, ofNat_toFin_extract]
  refine BitVec.eq_of_getLsbD_eq fun j hj => ?_
  interval_cases j <;> simp

theorem placeY_fieldY (op : Word) : placeY (fieldY op) = op &&& 0x00F0 := by
  rw [placeY, fieldY, ofNat_toFin_extract]
  refine BitVec.eq_of_getLsbD_eq fun j hj => ?_
  interval_cases j <;> simp

theorem placeN_fieldN (op : Word) : placeN (fieldN op) = op &&& 0x000F := by
  rw [placeN, fieldN, BitVec.ofNat_toNat, BitVec.setWidth_eq]
  refine BitVec.eq_of_getLsbD_eq fun j hj => ?_
  interval_cases j <;> simp

theorem placeKK_fieldKK (op : Word) : placeKK (fieldKK op) = op &&& 0x00FF := by
  refine BitVec.eq_of_getLsbD_eq fun j hj => ?_
  interval_cases j <;> simp [placeKK, fieldKK]

theorem placeNNN_fieldNNN (op : Word) : placeNNN (fieldNNN op) = op &&& 0x0FFF := by
  refine BitVec.eq_of_getLsbD_eq fun j hj => ?_
  interval_cases j <;> simp [placeNNN, fieldNNN]

/-! ## A place determines its field -/

theorem placeX_injective : Function.Injective placeX := by decide

theorem placeY_injective : Function.Injective placeY := by decide

theorem placeKK_injective : Function.Injective placeKK := fun a b h => by
  simpa [placeKK] using congrArg (BitVec.setWidth 8) h

theorem placeNNN_injective : Function.Injective placeNNN := fun a b h => by
  simpa [placeNNN] using congrArg (BitVec.setWidth 12) h

theorem placeN_inj {m n : Nat} (hm : m < 16) (hn : n < 16) (h : placeN m = placeN n) : m = n := by
  have value : ∀ k < 16, (placeN k).toNat = k := by decide
  rw [← value m hm, ← value n hn, h]

theorem fieldX_eq_of_and {op : Word} {x : RegIx} (h : op &&& 0x0F00 = placeX x) : fieldX op = x :=
  placeX_injective ((placeX_fieldX op).trans h)

theorem fieldY_eq_of_and {op : Word} {y : RegIx} (h : op &&& 0x00F0 = placeY y) : fieldY op = y :=
  placeY_injective ((placeY_fieldY op).trans h)

theorem fieldKK_eq_of_and {op : Word} {kk : Byte} (h : op &&& 0x00FF = placeKK kk) : fieldKK op = kk :=
  placeKK_injective ((placeKK_fieldKK op).trans h)

theorem fieldNNN_eq_of_and {op : Word} {nnn : Addr12} (h : op &&& 0x0FFF = placeNNN nnn) : fieldNNN op = nnn :=
  placeNNN_injective ((placeNNN_fieldNNN op).trans h)

theorem fieldN_eq_of_and {op : Word} {n : Nat} (hn : n < 16) (h : op &&& 0x000F = placeN n) : fieldN op = n :=
  placeN_inj (BitVec.isLt _) hn ((placeN_fieldN op).trans h)

/-! ## What the mask of one place keeps of another -/

open Laws.EncodedRow (and_eq_zero or_and_eq_zero accepts_or)

theorem placeX_and_00F0 (x : RegIx) : placeX x &&& 0x00F0 = 0 := and_eq_zero (placeX_mask x) (by decide)
theorem placeX_and_000F (x : RegIx) : placeX x &&& 0x000F = 0 := and_eq_zero (placeX_mask x) (by decide)
theorem placeX_and_00FF (x : RegIx) : placeX x &&& 0x00FF = 0 := and_eq_zero (placeX_mask x) (by decide)
theorem placeY_and_0F00 (y : RegIx) : placeY y &&& 0x0F00 = 0 := and_eq_zero (placeY_mask y) (by decide)
theorem placeY_and_000F (y : RegIx) : placeY y &&& 0x000F = 0 := and_eq_zero (placeY_mask y) (by decide)
theorem placeN_and_0F00 (n : Nat) : placeN n &&& 0x0F00 = 0 := and_eq_zero (placeN_mask n) (by decide)
theorem placeN_and_00F0 (n : Nat) : placeN n &&& 0x00F0 = 0 := and_eq_zero (placeN_mask n) (by decide)
theorem placeKK_and_0F00 (kk : Byte) : placeKK kk &&& 0x0F00 = 0 := and_eq_zero (placeKK_mask kk) (by decide)

/-! The library's laws of zero are of `0#16`, the statements' numeral is `0`. -/

theorem zero_or_word (op : Word) : 0 ||| op = op := BitVec.zero_or
theorem or_zero_word (op : Word) : op ||| 0 = op := BitVec.or_zero

/-! ## The fields of the words that the encoder makes, form by form

`p` is a row's fixed bits, which the mask of a field does not keep. -/

theorem fieldX_x {p : Word} (hp : p &&& 0x0F00 = 0) (x : RegIx) : fieldX (p ||| placeX x) = x :=
  fieldX_eq_of_and (by simp only [BitVec.and_or_distrib_right, hp, placeX_mask, zero_or_word])

theorem fieldX_xkk {p : Word} (hp : p &&& 0x0F00 = 0) (x : RegIx) (kk : Byte) : fieldX (p ||| placeX x ||| placeKK kk) = x :=
  fieldX_eq_of_and (by
    simp only [BitVec.and_or_distrib_right, hp, placeX_mask, placeKK_and_0F00, zero_or_word, or_zero_word])

theorem fieldKK_xkk {p : Word} (hp : p &&& 0x00FF = 0) (x : RegIx) (kk : Byte) : fieldKK (p ||| placeX x ||| placeKK kk) = kk :=
  fieldKK_eq_of_and (by simp only [BitVec.and_or_distrib_right, hp, placeX_and_00FF, placeKK_mask, zero_or_word, or_zero_word])

theorem fieldX_xy {p : Word} (hp : p &&& 0x0F00 = 0) (x y : RegIx) : fieldX (p ||| placeX x ||| placeY y) = x :=
  fieldX_eq_of_and (by
    simp only [BitVec.and_or_distrib_right, hp, placeX_mask, placeY_and_0F00, zero_or_word, or_zero_word])

theorem fieldY_xy {p : Word} (hp : p &&& 0x00F0 = 0) (x y : RegIx) : fieldY (p ||| placeX x ||| placeY y) = y :=
  fieldY_eq_of_and (by
    simp only [BitVec.and_or_distrib_right, hp, placeX_and_00F0, placeY_mask, zero_or_word, or_zero_word])

theorem fieldX_xyn {p : Word} (hp : p &&& 0x0F00 = 0) (x y : RegIx) (n : Nat) :
    fieldX (p ||| placeX x ||| placeY y ||| placeN n) = x :=
  fieldX_eq_of_and (by
    simp only [BitVec.and_or_distrib_right, hp, placeX_mask, placeY_and_0F00, placeN_and_0F00, zero_or_word, or_zero_word])

theorem fieldY_xyn {p : Word} (hp : p &&& 0x00F0 = 0) (x y : RegIx) (n : Nat) :
    fieldY (p ||| placeX x ||| placeY y ||| placeN n) = y :=
  fieldY_eq_of_and (by
    simp only [BitVec.and_or_distrib_right, hp, placeX_and_00F0, placeY_mask, placeN_and_00F0, zero_or_word, or_zero_word])

theorem fieldN_xyn {p : Word} (hp : p &&& 0x000F = 0) (x y : RegIx) {n : Nat} (hn : n < 16) :
    fieldN (p ||| placeX x ||| placeY y ||| placeN n) = n :=
  fieldN_eq_of_and hn (by
    simp only [BitVec.and_or_distrib_right, hp, placeX_and_000F, placeY_and_000F, placeN_mask, zero_or_word, or_zero_word])

theorem fieldNNN_nnn {p : Word} (hp : p &&& 0x0FFF = 0) (nnn : Addr12) : fieldNNN (p ||| placeNNN nnn) = nnn :=
  fieldNNN_eq_of_and (by simp only [BitVec.and_or_distrib_right, hp, placeNNN_mask, zero_or_word])

/-! ## Encode, then decode (R95, R96) -/

/-- Every opcode has the fixed bits of its instruction's row. -/
theorem accepts_encode : ∀ i : Instr, Laws.EncodedRow.Statement i
  | .nop => Laws.EncodedRow.nop
  | .cls => Laws.EncodedRow.cls
  | .ret => Laws.EncodedRow.ret
  | .jp nnn => Laws.EncodedRow.jp nnn
  | .call nnn => Laws.EncodedRow.call nnn
  | .seByte x kk => Laws.EncodedRow.seByte x kk
  | .sneByte x kk => Laws.EncodedRow.sneByte x kk
  | .seReg x y => Laws.EncodedRow.seReg x y
  | .ldByte x kk => Laws.EncodedRow.ldByte x kk
  | .addByte x kk => Laws.EncodedRow.addByte x kk
  | .ldReg x y => Laws.EncodedRow.ldReg x y
  | .orReg x y => Laws.EncodedRow.orReg x y
  | .andReg x y => Laws.EncodedRow.andReg x y
  | .xorReg x y => Laws.EncodedRow.xorReg x y
  | .addReg x y => Laws.EncodedRow.addReg x y
  | .sub x y => Laws.EncodedRow.sub x y
  | .shr x => Laws.EncodedRow.shr x
  | .subn x y => Laws.EncodedRow.subn x y
  | .shl x => Laws.EncodedRow.shl x
  | .sneReg x y => Laws.EncodedRow.sneReg x y
  | .ldI nnn => Laws.EncodedRow.ldI nnn
  | .jpV0 nnn => Laws.EncodedRow.jpV0 nnn
  | .rnd x kk => Laws.EncodedRow.rnd x kk
  | .drw x y n => Laws.EncodedRow.drw x y n
  | .skp x => Laws.EncodedRow.skp x
  | .sknp x => Laws.EncodedRow.sknp x
  | .ldVxDt x => Laws.EncodedRow.ldVxDt x
  | .ldVxK x => Laws.EncodedRow.ldVxK x
  | .ldDtVx x => Laws.EncodedRow.ldDtVx x
  | .ldStVx x => Laws.EncodedRow.ldStVx x
  | .addI x => Laws.EncodedRow.addI x
  | .ldF x => Laws.EncodedRow.ldF x
  | .ldB x => Laws.EncodedRow.ldB x
  | .stRegs x => Laws.EncodedRow.stRegs x
  | .ldRegs x => Laws.EncodedRow.ldRegs x

/-- An instruction's row builds it from the fields of its opcode. -/
theorem build_encode {i : Instr} (hw : i.wellFormed = true) :
    ∃ r, opcodeTable[Laws.EncodedRow.rowIndex i]? = some r ∧ r.build (encode i) = i := by
  cases i with
  | drw x y n =>
    have hn : n < 16 := by simpa [Instr.wellFormed] using hw
    exact ⟨_, rfl, by simp (disch := decide) only [encode, fieldX_xyn, fieldY_xyn, fieldN_xyn _ _ _ hn]⟩
  | nop | cls | ret => exact ⟨_, rfl, rfl⟩
  | jp | call | ldI | jpV0 => exact ⟨_, rfl, by simp (disch := decide) only [encode, fieldNNN_nnn]⟩
  | seByte | sneByte | ldByte | addByte | rnd =>
    exact ⟨_, rfl, by simp (disch := decide) only [encode, fieldX_xkk, fieldKK_xkk]⟩
  | seReg | ldReg | orReg | andReg | xorReg | addReg | sub | subn | sneReg =>
    exact ⟨_, rfl, by simp (disch := decide) only [encode, fieldX_xy, fieldY_xy]⟩
  | shr | shl | skp | sknp | ldVxDt | ldVxK | ldDtVx | ldStVx | addI | ldF | ldB | stRegs | ldRegs =>
    exact ⟨_, rfl, by simp (disch := decide) only [encode, fieldX_x]⟩

theorem decodeWord_encode {i : Instr} (hw : i.wellFormed = true) : decodeWord (encode i) = some i := by
  obtain ⟨r, hr, hb⟩ := build_encode hw
  obtain ⟨q, hq, ha⟩ := accepts_encode i
  obtain rfl : r = q := Option.some.inj (hr.symm.trans hq)
  rw [decodeWord_of_accepts (List.mem_of_getElem? hr) ha, hb]

/-- Settles O1: the instruction's own row accepts its opcode and builds the instruction from it, and the rows are disjoint; on bytes the
decoder is the decoder on the word. -/
theorem encodeThenDecodeGivesInstruction : Obligations.EncodeThenDecodeGivesInstruction := by
  refine fun i hw => ⟨decodeWord_encode hw, ?_⟩
  rw [encodeBytes, decode_bytesOfWord, decodeWord_encode hw]

/-! ## Decode, then encode (R95, R98) -/

/-- The bits of an instruction's opcode that the instruction determines: the shifts ignore nibble 3 (R98). -/
def keptBits : Instr → Word
  | .shr _ | .shl _ => 0xFF0F
  | _ => 0xFFFF

/-- A row encodes back: from a word that it accepts it builds a well-formed instruction, whose opcode has the bits of the word that the
instruction determines. -/
def OpcodeRow.EncodesBack (r : OpcodeRow) : Prop :=
  ∀ op, r.accepts op = true → (r.build op).wellFormed = true ∧ encode (r.build op) = op &&& keptBits (r.build op)

/-- The fields of a word in their places, with the word's fixed bits, are the word: the mask and the places cover it. -/
theorem cover_x {op p : Word} (h : op &&& 0xF0FF = p) : p ||| placeX (fieldX op) = op := by
  rw [← h, placeX_fieldX, ← BitVec.and_or_distrib_left]
  exact and_FFFF op

theorem cover_xkk {op p : Word} (h : op &&& 0xF000 = p) : p ||| placeX (fieldX op) ||| placeKK (fieldKK op) = op := by
  rw [← h, placeX_fieldX, placeKK_fieldKK, ← BitVec.and_or_distrib_left, ← BitVec.and_or_distrib_left]
  exact and_FFFF op

theorem cover_xy {op p : Word} (h : op &&& 0xF00F = p) : p ||| placeX (fieldX op) ||| placeY (fieldY op) = op := by
  rw [← h, placeX_fieldX, placeY_fieldY, ← BitVec.and_or_distrib_left, ← BitVec.and_or_distrib_left]
  exact and_FFFF op

theorem cover_xyn {op p : Word} (h : op &&& 0xF000 = p) :
    p ||| placeX (fieldX op) ||| placeY (fieldY op) ||| placeN (fieldN op) = op := by
  rw [← h, placeX_fieldX, placeY_fieldY, placeN_fieldN, ← BitVec.and_or_distrib_left, ← BitVec.and_or_distrib_left,
    ← BitVec.and_or_distrib_left]
  exact and_FFFF op

theorem cover_nnn {op p : Word} (h : op &&& 0xF000 = p) : p ||| placeNNN (fieldNNN op) = op := by
  rw [← h, placeNNN_fieldNNN, ← BitVec.and_or_distrib_left]
  exact and_FFFF op

/-- The rows of 8xy6 and 8xyE leave nibble 3 uncovered. -/
theorem cover_shift {op p : Word} (h : op &&& 0xF00F = p) : p ||| placeX (fieldX op) = op &&& 0xFF0F := by
  rw [← h, placeX_fieldX, ← BitVec.and_or_distrib_left]
  rfl

/-! A row of each form encodes back, given the encoder's line for its instruction. -/

namespace OpcodeRow

theorem eq_of_accepts {p m : Word} {build : Word → Instr} {op : Word} (h : accepts ⟨p, m, build⟩ op = true) : op &&& m = p := by
  simpa [accepts] using h

/-- An instruction whose opcode has every bit determined. -/
def Determined (i : Instr) (op : Word) : Prop := i.wellFormed = true ∧ encode i = op ∧ keptBits i = 0xFFFF

theorem encodesBack_of_determined {p m : Word} {build : Word → Instr}
    (h : ∀ op, op &&& m = p → Determined (build op) op) : EncodesBack ⟨p, m, build⟩ := by
  intro op ha
  obtain ⟨hw, he, hk⟩ := h op (eq_of_accepts ha)
  exact ⟨hw, by rw [he, hk, and_FFFF]⟩

theorem encodesBack_fixed {p : Word} {i : Instr} (h : Determined i p) : EncodesBack ⟨p, 0xFFFF, fun _ => i⟩ :=
  encodesBack_of_determined fun op hop => by rwa [← and_FFFF op, hop]

theorem encodesBack_x {p : Word} {c : RegIx → Instr} (h : ∀ x, Determined (c x) (p ||| placeX x)) :
    EncodesBack ⟨p, 0xF0FF, fun op => c (fieldX op)⟩ :=
  encodesBack_of_determined fun op hop => by simpa only [cover_x hop] using h (fieldX op)

theorem encodesBack_xkk {p : Word} {c : RegIx → Byte → Instr} (h : ∀ x kk, Determined (c x kk) (p ||| placeX x ||| placeKK kk)) :
    EncodesBack ⟨p, 0xF000, fun op => c (fieldX op) (fieldKK op)⟩ :=
  encodesBack_of_determined fun op hop => by simpa only [cover_xkk hop] using h (fieldX op) (fieldKK op)

theorem encodesBack_xy {p : Word} {c : RegIx → RegIx → Instr} (h : ∀ x y, Determined (c x y) (p ||| placeX x ||| placeY y)) :
    EncodesBack ⟨p, 0xF00F, fun op => c (fieldX op) (fieldY op)⟩ :=
  encodesBack_of_determined fun op hop => by simpa only [cover_xy hop] using h (fieldX op) (fieldY op)

theorem encodesBack_nnn {p : Word} {c : Addr12 → Instr} (h : ∀ nnn, Determined (c nnn) (p ||| placeNNN nnn)) :
    EncodesBack ⟨p, 0xF000, fun op => c (fieldNNN op)⟩ :=
  encodesBack_of_determined fun op hop => by simpa only [cover_nnn hop] using h (fieldNNN op)

theorem encodesBack_drw : EncodesBack ⟨0xD000, 0xF000, fun op => .drw (fieldX op) (fieldY op) (fieldN op)⟩ :=
  encodesBack_of_determined fun op hop => ⟨decide_eq_true (BitVec.isLt (op.extractLsb' 0 4)), cover_xyn hop, rfl⟩

theorem encodesBack_shift {p : Word} {c : RegIx → Instr}
    (h : ∀ x, (c x).wellFormed = true ∧ encode (c x) = p ||| placeX x ∧ keptBits (c x) = 0xFF0F) :
    EncodesBack ⟨p, 0xF00F, fun op => c (fieldX op)⟩ := by
  intro op ha
  obtain ⟨hw, he, hk⟩ := h (fieldX op)
  exact ⟨hw, by rw [he, hk, cover_shift (eq_of_accepts ha)]⟩

theorem encodesBack_low : ∀ r ∈ opcodeRowsLow, r.EncodesBack := by
  simp only [opcodeRowsLow, List.forall_mem_cons]
  exact ⟨encodesBack_fixed ⟨rfl, rfl, rfl⟩, encodesBack_fixed ⟨rfl, rfl, rfl⟩, encodesBack_fixed ⟨rfl, rfl, rfl⟩,
    encodesBack_nnn (c := .jp) fun _ => ⟨rfl, rfl, rfl⟩,
    encodesBack_nnn (c := .call) fun _ => ⟨rfl, rfl, rfl⟩,
    encodesBack_xkk (c := .seByte) fun _ _ => ⟨rfl, rfl, rfl⟩,
    encodesBack_xkk (c := .sneByte) fun _ _ => ⟨rfl, rfl, rfl⟩,
    encodesBack_xy (c := .seReg) fun _ _ => ⟨rfl, rfl, rfl⟩,
    encodesBack_xkk (c := .ldByte) fun _ _ => ⟨rfl, rfl, rfl⟩,
    encodesBack_xkk (c := .addByte) fun _ _ => ⟨rfl, rfl, rfl⟩,
    List.forall_mem_nil _⟩

theorem encodesBack_alu : ∀ r ∈ opcodeRowsAlu, r.EncodesBack := by
  simp only [opcodeRowsAlu, List.forall_mem_cons]
  exact ⟨encodesBack_xy (c := .ldReg) fun _ _ => ⟨rfl, rfl, rfl⟩,
    encodesBack_xy (c := .orReg) fun _ _ => ⟨rfl, rfl, rfl⟩,
    encodesBack_xy (c := .andReg) fun _ _ => ⟨rfl, rfl, rfl⟩,
    encodesBack_xy (c := .xorReg) fun _ _ => ⟨rfl, rfl, rfl⟩,
    encodesBack_xy (c := .addReg) fun _ _ => ⟨rfl, rfl, rfl⟩,
    encodesBack_xy (c := .sub) fun _ _ => ⟨rfl, rfl, rfl⟩,
    encodesBack_shift (c := .shr) fun _ => ⟨rfl, rfl, rfl⟩,
    encodesBack_xy (c := .subn) fun _ _ => ⟨rfl, rfl, rfl⟩,
    encodesBack_shift (c := .shl) fun _ => ⟨rfl, rfl, rfl⟩,
    encodesBack_xy (c := .sneReg) fun _ _ => ⟨rfl, rfl, rfl⟩,
    List.forall_mem_nil _⟩

theorem encodesBack_high : ∀ r ∈ opcodeRowsHigh, r.EncodesBack := by
  simp only [opcodeRowsHigh, List.forall_mem_cons]
  exact ⟨encodesBack_nnn (c := .ldI) fun _ => ⟨rfl, rfl, rfl⟩,
    encodesBack_nnn (c := .jpV0) fun _ => ⟨rfl, rfl, rfl⟩,
    encodesBack_xkk (c := .rnd) fun _ _ => ⟨rfl, rfl, rfl⟩,
    encodesBack_drw,
    encodesBack_x (c := .skp) fun _ => ⟨rfl, rfl, rfl⟩,
    encodesBack_x (c := .sknp) fun _ => ⟨rfl, rfl, rfl⟩,
    encodesBack_x (c := .ldVxDt) fun _ => ⟨rfl, rfl, rfl⟩,
    encodesBack_x (c := .ldVxK) fun _ => ⟨rfl, rfl, rfl⟩,
    encodesBack_x (c := .ldDtVx) fun _ => ⟨rfl, rfl, rfl⟩,
    encodesBack_x (c := .ldStVx) fun _ => ⟨rfl, rfl, rfl⟩,
    encodesBack_x (c := .addI) fun _ => ⟨rfl, rfl, rfl⟩,
    encodesBack_x (c := .ldF) fun _ => ⟨rfl, rfl, rfl⟩,
    encodesBack_x (c := .ldB) fun _ => ⟨rfl, rfl, rfl⟩,
    encodesBack_x (c := .stRegs) fun _ => ⟨rfl, rfl, rfl⟩,
    encodesBack_x (c := .ldRegs) fun _ => ⟨rfl, rfl, rfl⟩,
    List.forall_mem_nil _⟩

theorem encodesBack_of_mem {r : OpcodeRow} (hr : r ∈ opcodeTable) : r.EncodesBack := by
  simp only [opcodeTable, List.mem_append] at hr
  obtain (hr | hr) | hr := hr
  · exact encodesBack_low r hr
  · exact encodesBack_alu r hr
  · exact encodesBack_high r hr

end OpcodeRow

/-- Settles O2: the row that the decoder used encodes back, and only the shifts leave bits of the word undetermined. -/
theorem decodeThenEncodeGivesWord : Obligations.DecodeThenEncodeGivesWord := by
  intro op i hd
  obtain ⟨r, hr, ha, rfl⟩ := accepts_of_decodeWord hd
  obtain ⟨hw, he⟩ := OpcodeRow.encodesBack_of_mem hr op ha
  refine ⟨hw, he.trans ?_⟩
  cases r.build op with
  | shr | shl => rfl
  | _ => exact and_FFFF op

/-! ## The rows are disjoint (R95) -/

/-- Settles O4: of two rows at different places, one stands before the other, and no word is accepted by both. -/
theorem opcodeRowsAreDisjoint : Obligations.OpcodeRowsAreDisjoint := by
  intro op j k r q hj hk hr hq
  have apart {a b : Nat} {u w : OpcodeRow} (hlt : a < b) (hu : opcodeTable[a]? = some u) (hw : opcodeTable[b]? = some w)
      (hau : u.accepts op = true) : w.accepts op ≠ true := fun haw => by
    obtain ⟨ha, rfl⟩ := List.getElem?_eq_some_iff.mp hu
    obtain ⟨hb, rfl⟩ := List.getElem?_eq_some_iff.mp hw
    exact List.pairwise_iff_getElem.mp opcodeTable_pairwise a b ha hb hlt (OpcodeRow.agree_of_accepts hau haw)
  obtain hlt | heq | hgt := Nat.lt_trichotomy j k
  · exact absurd hq (apart hlt hj hk hr)
  · exact heq
  · exact absurd hr (apart hgt hk hj hq)

/-! ## Words by their nibbles -/

/-- A row that fixes the leading and the last nibble and reads `X` ignores what stands in the place of `Y`. -/
theorem decodeWord_xy_of_mem {p : Word} {c : RegIx → Instr} (hr : ⟨p, 0xF00F, fun op => c (fieldX op)⟩ ∈ opcodeTable)
    (hp : p &&& 0xF00F = p) (hx : p &&& 0x0F00 = 0) (x y : RegIx) : decodeWord (p ||| placeX x ||| placeY y) = some (c x) := by
  have free : (placeX x ||| placeY y) &&& 0xF00F = 0 :=
    or_and_eq_zero (and_eq_zero (placeX_mask x) (by decide)) (and_eq_zero (placeY_mask y) (by decide))
  have accepted := accepts_or (build := fun op => c (fieldX op)) hp free
  rw [← BitVec.or_assoc] at accepted
  simpa only [fieldX_xy hx] using decodeWord_of_accepts hr accepted

/-- Settles O5: the rows of the two shifts ignore nibble 3. -/
theorem shiftWordsIgnoreY : Obligations.ShiftWordsIgnoreY :=
  fun x y =>
    ⟨decodeWord_xy_of_mem (c := .shr) (List.mem_of_getElem? (i := 16) rfl) (by decide) (by decide) x y,
      decodeWord_xy_of_mem (c := .shl) (List.mem_of_getElem? (i := 18) rfl) (by decide) (by decide) x y⟩

/-- Settles O6: the table is searched for each word. -/
theorem exampleWordsDecode : Obligations.ExampleWordsDecode := by
  unfold Obligations.ExampleWordsDecode
  decide

end Sys2Proof

/-! The step (spec/30_encoding.md R93, R94) and the rest of the control flow (spec/40_control_flow.md): the indexed jump, the call and
the return, and the steps on a jump to itself and on a skip. -/

namespace Sys2Proof.Machine

/-! ## The step -/

theorem step_of_fault {s : State} {f : Fault} (hf : s.fault = some f) : step s = .refused .faultedState := by
  simp only [step, hf]

theorem step_of_pc_ge {s : State} (hf : s.fault = none) (hp : s.pc.toNat + 1 ≥ Config.memSize) :
    step s = .fault (.outOfBounds .fetch s.pc.toNat) := by
  simp only [step, hf, fetch_of_ge hp, raise]

/-- Where the next word is an instruction's opcode, the step is that instruction's. -/
theorem step_of_wordAt {s : State} {i : Instr} (hf : s.fault = none) (hp : s.pc.toNat + 1 < Config.memSize)
    (hw : i.wellFormed = true) (h : s.wordAt s.pc.toNat = encode i) : step s = exec i s.advance :=
  step_of_decodeWord_eq_some hf hp (by rw [h, decodeWord_encode hw])

/-- Putting the old `pc` back undoes a write of `pc`. -/
theorem State.setPc_restore_pc (s : State) (a : PcVal) : { s.setPc a with pc := s.pc } = s := rfl

/-- Settles O7: the two bytes of the word count 256 and 1, and a fetch in memory leaves room above `pc`. -/
theorem fetchReadsWordAndAdvances : Obligations.FetchReadsWordAndAdvances :=
  fun s => ⟨fun hp => ⟨_, _, fetch_of_lt hp, toNat_wordOfBytes _ _, toNat_pc_advance hp, s.setPc_restore_pc _⟩, fetch_of_ge⟩

/-- Settles O8: each clause is one branch of the step. -/
theorem stepRunsDecodedInstruction : Obligations.StepRunsDecodedInstruction :=
  fun _ => ⟨fun _ => step_of_fault, fun hf => ⟨step_of_pc_ge hf, fun hp =>
    ⟨step_of_decodeWord_eq_none hf hp, fun _ hd => step_of_decodeWord_eq_some hf hp hd⟩⟩⟩

/-! ## The meanings, through the operations of the state -/

theorem exec_jpV0 (nnn : Addr12) (s : State) : exec (.jpV0 nnn) s = .next (s.setPc (indexedTarget (s.reg 0) nnn)) := rfl

/-- The state after a call with a free slot: the return address pushed, `pc` at the target. -/
def State.called (s : State) (nnn : Addr12) (top : Fin Config.stackDepth) : State :=
  { s with stack := s.stack.set top s.pc, sp := top.succ, pc := zextAddr nnn }

/-- The state after a return from a stack whose top entry stands in slot `top`. -/
def State.returned (s : State) (top : Fin Config.stackDepth) : State := { s with sp := top.castSucc, pc := s.stack[top] }

theorem exec_call_of_eq {s : State} {top : Fin Config.stackDepth} (nnn : Addr12) (h : s.sp.val = top.val) :
    exec (.call nnn) s = .next (s.called nnn top) := by
  obtain ⟨k, hk⟩ := top
  obtain rfl : s.sp.val = k := h
  show execCall nnn s = _
  rw [execCall, State.push_of_lt s s.pc hk]
  rfl

theorem exec_call_of_full {s : State} (nnn : Addr12) (h : s.sp.val = Config.stackDepth) :
    exec (.call nnn) s = .fault (.outOfBounds .stackOverflow Config.stackDepth) := by
  show execCall nnn s = _
  rw [execCall, State.push_full s s.pc h]
  rfl

theorem exec_ret_of_eq {s : State} {top : Fin Config.stackDepth} (h : s.sp.val = top.val + 1) :
    exec .ret s = .next (s.returned top) := by
  obtain ⟨k, hk⟩ := top
  obtain rfl : k = s.sp.val - 1 := Nat.eq_sub_of_add_eq h.symm
  show execRet s = _
  rw [execRet, State.pop_of_pos s (by omega) hk]
  rfl

theorem exec_ret_of_empty {s : State} (h : s.sp.val = 0) : exec .ret s = .fault (.outOfBounds .stackUnderflow 0) := by
  show execRet s = _
  rw [execRet, State.pop_empty s h]
  rfl

theorem exec_call_cases (nnn : Addr12) (s : State) :
    (s.sp.val = Config.stackDepth ∧ exec (.call nnn) s = .fault (.outOfBounds .stackOverflow Config.stackDepth)) ∨
      ∃ top, exec (.call nnn) s = .next (s.called nnn top) := by
  by_cases free : s.sp.val < Config.stackDepth
  · exact .inr ⟨⟨s.sp.val, free⟩, exec_call_of_eq nnn rfl⟩
  · have full : s.sp.val = Config.stackDepth := Nat.le_antisymm (Nat.le_of_lt_succ s.sp.isLt) (Nat.le_of_not_lt free)
    exact .inl ⟨full, exec_call_of_full nnn full⟩

theorem exec_ret_cases (s : State) :
    (s.sp.val = 0 ∧ exec .ret s = .fault (.outOfBounds .stackUnderflow 0)) ∨ ∃ top, exec .ret s = .next (s.returned top) := by
  by_cases empty : s.sp.val = 0
  · exact .inl ⟨empty, exec_ret_of_empty empty⟩
  · have hlt : s.sp.val - 1 < Config.stackDepth := by omega
    exact .inr ⟨⟨s.sp.val - 1, hlt⟩, exec_ret_of_eq (Nat.succ_pred empty).symm⟩

/-! ## The obligations -/

/-- Settles O14: the sum of Bnnn fits 16 bits, so it is exact. -/
theorem indexedJumpAddsV0 : Obligations.IndexedJumpAddsV0 :=
  fun nnn s => ⟨_, exec_jpV0 nnn s, toNat_indexedTarget _ nnn, s.setPc_restore_pc _⟩

/-- Settles O15: a full stack faults; a free slot receives the advanced `pc` and no other slot is touched. -/
theorem callPushesReturnAddress : Obligations.CallPushesReturnAddress := by
  refine fun nnn s => ⟨fun full => ?_, fun top h => ⟨_, exec_call_of_eq nnn h, ?_, fun j hj => ?_, ?_, toNat_zextAddr nnn, rfl⟩⟩
  · rw [exec_call_of_full nnn full, full]
  · simp [State.called]
  · have apart : top.val ≠ j.val := fun e => hj (Fin.ext e.symm)
    simp [State.called, apart]
  · rw [h]
    rfl

/-- Settles O16: an empty stack faults; else `pc` is the slot below `sp`, and no slot is touched. -/
theorem returnPopsPc : Obligations.ReturnPopsPc := by
  refine fun s => ⟨fun empty => ?_, fun top h => ⟨_, exec_ret_of_eq h, rfl, rfl, rfl⟩⟩
  rw [exec_ret_of_empty empty, empty]

/-- Settles O17: the return pops the slot that the call has written, which is the one `sp` named before it. -/
theorem callThenReturnComesBack : Obligations.CallThenReturnComesBack := by
  intro nnn s hlt
  obtain ⟨top, htop⟩ : ∃ top : Fin Config.stackDepth, s.sp.val = top.val := ⟨⟨s.sp.val, hlt⟩, rfl⟩
  have sp_back : top.castSucc = s.sp := Fin.ext htop.symm
  have popped : (s.called nnn top).stack[top] = s.pc := by simp [State.called]
  refine ⟨_, _, exec_call_of_eq nnn htop, exec_ret_of_eq (top := top) rfl, popped, sp_back, fun j hj => ?_, ?_⟩
  · have apart : top.val ≠ j.val := by omega
    simp [State.returned, State.called, apart]
  · rw [State.returned, popped, sp_back]
    rfl

/-- Settles O13: the jump to itself undoes the advance of its fetch. -/
theorem selfJumpStaysAtRest : Obligations.SelfJumpStaysAtRest := by
  intro h s ⟨hf, hpc, hlt, hw⟩
  have hpcn : s.pc.toNat = h.toNat := by rw [hpc, toNat_zextAddr]
  rw [← hpcn] at hlt hw
  calc step s = exec (.jp h) s.advance := step_of_wordAt hf hlt rfl hw
    _ = .next (s.advance.setPc (zextAddr h)) := exec_jp h s.advance
    _ = .next (s.advance.setPc s.pc) := by rw [hpc]
    _ = .next s := rfl

/-- Settles O20: the fetch leaves `pc` at most 4096, so neither of the two additions wraps. -/
theorem skippingStepAdvancesFour : Obligations.SkippingStepAdvancesFour := by
  intro x kk s hf hp hw
  have fetched : s.advance.pc.toNat = s.pc.toNat + 2 := toNat_pc_advance hp
  have skipped : (s.advance.pc + 2).toNat = s.pc.toNat + 4 := by
    rw [Config.memSize_eq] at hp
    rw [BitVec.toNat_add, fetched, show (2 : PcVal).toNat = 2 from rfl, Nat.mod_eq_of_lt (by simp; omega)]
  refine ⟨{ s with pc := if s.reg x = kk then s.advance.pc + 2 else s.advance.pc }, ?_, ?_, rfl⟩
  · rw [step_of_wordAt hf hp rfl hw, exec_seByte, State.skipIf_decide]
    rfl
  · by_cases h : s.reg x = kk
    · simp only [h, if_true, skipped]
    · simp only [h, if_false, fetched]

end Sys2Proof.Machine

/-! The rest of the ALU (spec/42_alu.md) and of the writes of `I` (spec/43_index_memory.md): the logic instructions, the flag as the last
write, the random byte, the address overflow and the glyph address. -/

namespace Sys2Proof.Machine

/-! ## The meanings, through the operations of the state -/

theorem exec_orReg (x y : RegIx) (s : State) : exec (.orReg x y) s = .next (s.setReg x (s.reg x ||| s.reg y)) := rfl

theorem exec_andReg (x y : RegIx) (s : State) : exec (.andReg x y) s = .next (s.setReg x (s.reg x &&& s.reg y)) := rfl

theorem exec_xorReg (x y : RegIx) (s : State) : exec (.xorReg x y) s = .next (s.setReg x (s.reg x ^^^ s.reg y)) := rfl

theorem exec_rnd (x : RegIx) (kk : Byte) (s : State) :
    exec (.rnd x kk) s = .next (s.setReg x (Config.randomByte s.draws &&& kk)).drawn := rfl

theorem exec_ldF (x : RegIx) (s : State) : exec (.ldF x) s = .next (s.setI (glyphAddress (s.reg x))) := rfl

/-! ## A register write after which a free value has been drawn -/

/-- A draw is of the counter alone, so the registers read as before it. -/
@[simp] theorem State.reg_drawn (s : State) (r : RegIx) : s.drawn.reg r = s.reg r := rfl

/-- Putting the old registers and the old counter back undoes a register write with a draw. -/
theorem State.setReg_drawn_restore (s : State) (r : RegIx) (b : RegVal) :
    { (s.setReg r b).drawn with v := s.v, draws := s.draws } = s := rfl

/-! ## The flag under `VF_ORDER` = `flag_last` (R150) -/

theorem writeFlagged_reg_flagReg (res flag : RegVal) (s : State) :
    (writeFlagged params.vfOrder Config.flagReg res flag s).reg Config.flagReg = flag :=
  State.reg_setReg_self _ _ _

theorem addFlag_eq (a b : RegVal) : addFlag a b = if a.toNat + b.toNat > 255 then 1 else 0 :=
  BitVec.eq_of_toNat_eq (by rw [toNat_addFlag, apply_ite BitVec.toNat]; rfl)

theorem subFlag_eq (a b : RegVal) : subFlag a b = if a.toNat < b.toNat then 0 else 1 :=
  BitVec.eq_of_toNat_eq (by rw [toNat_subFlag, apply_ite BitVec.toNat]; rfl)

/-- The bit that 8xyE shifts out is set from 128 on. -/
theorem shlFlag_eq (a : RegVal) : shlFlag a = if 128 ≤ a.toNat then 1 else 0 := by
  have := toNat_regVal_lt a
  refine BitVec.eq_of_toNat_eq ?_
  rw [toNat_shlFlag, apply_ite BitVec.toNat]
  show a.toNat / 128 = if 128 ≤ a.toNat then 1 else 0
  split <;> omega

/-! ## The obligations -/

/-- Settles O27: each of the three is one register write. -/
theorem logicWritesOnlyVx : Obligations.LogicWritesOnlyVx :=
  fun x y s =>
    ⟨⟨_, exec_orReg x y s, fun r => s.reg_setReg r x _, s.setReg_restore_v x _⟩,
      ⟨_, exec_andReg x y s, fun r => s.reg_setReg r x _, s.setReg_restore_v x _⟩,
      ⟨_, exec_xorReg x y s, fun r => s.reg_setReg r x _, s.setReg_restore_v x _⟩⟩

/-- Settles O32: under the default order the flag's write is the last one, and the flag was computed from the registers before both. -/
theorem flagWinsWhenDestinationIsVF : Obligations.FlagWinsWhenDestinationIsVF :=
  fun y s =>
    ⟨⟨_, exec_addReg _ y s, (writeFlagged_reg_flagReg _ _ s).trans (addFlag_eq _ _)⟩,
      ⟨_, exec_sub _ y s, (writeFlagged_reg_flagReg _ _ s).trans (subFlag_eq _ _)⟩,
      ⟨_, exec_subn _ y s, (writeFlagged_reg_flagReg _ _ s).trans (subFlag_eq _ _)⟩,
      ⟨_, exec_shr _ s, writeFlagged_reg_flagReg _ _ s⟩,
      ⟨_, exec_shl _ s, (writeFlagged_reg_flagReg _ _ s).trans (shlFlag_eq _)⟩⟩

/-- Settles O33: Vx is written with the masked draw, and a mask keeps none of the bits it lacks. -/
theorem randomByteIsMasked : Obligations.RandomByteIsMasked := by
  refine fun x kk s => ⟨_, exec_rnd x kk s, fun r => ?_, ?_, rfl, s.setReg_drawn_restore x _⟩
  · rw [State.reg_drawn, State.reg_setReg]
  · rw [State.reg_drawn, State.reg_setReg_self, BitVec.and_assoc, BitVec.and_not_self]
    exact BitVec.and_zero

/-- Settles O36: the default of `I_OVERFLOW` is the fault, and the sum does not fit. -/
theorem addressOverflowFaults : Obligations.AddressOverflowFaults := by
  intro x s exceeds
  have stops : params.iOverflow ≠ .wrap := by decide
  rw [exec_addI, addAddress_eq, if_neg (by simpa [stops] using exceeds)]
  rfl

/-- Settles O37: five times a byte fits 16 bits, so the address is exact. -/
theorem loadGlyphAddressSetsI : Obligations.LoadGlyphAddressSetsI :=
  fun x s => ⟨_, exec_ldF x s, toNat_glyphAddress _, s.setI_restore_i _⟩

end Sys2Proof.Machine

/-! The keypad (spec/44_keypad_timers.md): the key skips and the key wait. -/

namespace Sys2Proof.Machine

/-! ## The key skips (R200, R201) -/

theorem exec_skp_of_key {x : RegIx} {s : State} {k : KeyIx} (h : (s.reg x).toNat = k.val) :
    exec (.skp x) s = .next (s.skipIf (decide (s.key[k] = true))) := by
  show execSkp x s = _
  rw [execSkp, h, keyIndex_of_lt k.isLt, Bool.decide_eq_true]

theorem exec_sknp_of_key {x : RegIx} {s : State} {k : KeyIx} (h : (s.reg x).toNat = k.val) :
    exec (.sknp x) s = .next (s.skipIf (decide ¬ s.key[k] = true)) := by
  show execSknp x s = _
  rw [execSknp, h, keyIndex_of_lt k.isLt, decide_not, Bool.decide_eq_true]

theorem exec_skp_of_ge {x : RegIx} {s : State} (h : (s.reg x).toNat ≥ Config.numKeys) :
    exec (.skp x) s = .fault (.outOfBounds .keyIndex (s.reg x).toNat) := by
  show execSkp x s = _
  rw [execSkp, keyIndex_of_ge (Nat.not_lt.mpr h)]
  rfl

theorem exec_sknp_of_ge {x : RegIx} {s : State} (h : (s.reg x).toNat ≥ Config.numKeys) :
    exec (.sknp x) s = .fault (.outOfBounds .keyIndex (s.reg x).toNat) := by
  show execSknp x s = _
  rw [execSknp, keyIndex_of_ge (Nat.not_lt.mpr h)]
  rfl

theorem exec_skp_cases (x : RegIx) (s : State) :
    ((s.reg x).toNat ≥ Config.numKeys ∧ exec (.skp x) s = .fault (.outOfBounds .keyIndex (s.reg x).toNat)) ∨
      ∃ c, exec (.skp x) s = .next (s.skipIf c) := by
  by_cases hk : (s.reg x).toNat < Config.numKeys
  · exact .inr ⟨_, exec_skp_of_key (k := ⟨_, hk⟩) rfl⟩
  · exact .inl ⟨Nat.le_of_not_lt hk, exec_skp_of_ge (Nat.le_of_not_lt hk)⟩

theorem exec_sknp_cases (x : RegIx) (s : State) :
    ((s.reg x).toNat ≥ Config.numKeys ∧ exec (.sknp x) s = .fault (.outOfBounds .keyIndex (s.reg x).toNat)) ∨
      ∃ c, exec (.sknp x) s = .next (s.skipIf c) := by
  by_cases hk : (s.reg x).toNat < Config.numKeys
  · exact .inr ⟨_, exec_sknp_of_key (k := ⟨_, hk⟩) rfl⟩
  · exact .inl ⟨Nat.le_of_not_lt hk, exec_sknp_of_ge (Nat.le_of_not_lt hk)⟩

/-- Settles O43: a key's number skips on the key, or on its negation; a larger value names no key. -/
theorem keySkipsReadTheKey : Obligations.KeySkipsReadTheKey := by
  refine fun x s => ⟨fun k h => ⟨?_, ?_⟩, fun h => ⟨exec_skp_of_ge h, exec_sknp_of_ge h⟩⟩
  · rw [exec_skp_of_key h, State.skipIf_decide]
  · rw [exec_sknp_of_key h, State.skipIf_decide_not]

/-! ## The key wait (R203) -/

theorem State.pressed_eq_nil {s : State} : s.pressed = [] ↔ ∀ k : KeyIx, s.key[k] = false := by
  simp only [List.eq_nil_iff_forall_not_mem, State.mem_pressed, Bool.not_eq_true]

theorem exec_ldVxK_of_none {x : RegIx} {s : State} (h : s.pressed = []) : exec (.ldVxK x) s = .next s.rewind := by
  show execLdVxK x s = _
  rw [execLdVxK, h]
  rfl

theorem exec_ldVxK_of_some {x : RegIx} {s : State} {k : KeyIx}
    (h : pickKey params.keyPick (Config.keyChoice s.draws) s.pressed = some k) :
    exec (.ldVxK x) s = .next (s.setReg x (BitVec.ofNat Config.regWidth k.val)).drawn := by
  show execLdVxK x s = _
  rw [execLdVxK, h]

/-- With a key pressed the wait picks one. -/
theorem exists_pickKey {s : State} {k : KeyIx} (h : s.key[k] = true) (how : KeyPick) (free : Nat) :
    ∃ j, pickKey how free s.pressed = some j := by
  refine Option.ne_none_iff_exists'.mp fun none => ?_
  have empty := (pickKey_eq_none how free s.pressed).mp none
  exact Bool.false_ne_true ((State.pressed_eq_nil.mp empty k).symm.trans h)

/-- Under `any_pressed` the free value can be the place of any pressed key. -/
theorem exists_pickKey_anyPressed {p : List KeyIx} {k : KeyIx} (h : k ∈ p) : ∃ free, pickKey .anyPressed free p = some k := by
  obtain ⟨n, hn, rfl⟩ := List.getElem_of_mem h
  cases p with
  | nil => exact absurd h List.not_mem_nil
  | cons a as =>
    have place : n % (as.length + 1) = n := Nat.mod_eq_of_lt hn
    refine ⟨n, ?_⟩
    rw [pickKey, place, List.getElem?_eq_getElem hn]

/-- The pressed keys stand in increasing order. -/
theorem State.pressed_pairwise (s : State) : s.pressed.Pairwise (· < ·) := (List.pairwise_lt_finRange _).filter _

/-- Under `lowest` the choice is the head of the increasing list. -/
theorem pickKey_lowest_le {s : State} {free : Nat} {j k : KeyIx} (h : pickKey .lowest free s.pressed = some k)
    (hj : s.key[j] = true) : k ≤ j := by
  have hmem := s.mem_pressed j |>.mpr hj
  have sorted := s.pressed_pairwise
  cases hp : s.pressed with
  | nil => rw [hp] at hmem; exact absurd hmem List.not_mem_nil
  | cons a as =>
    rw [hp] at h hmem sorted
    obtain rfl : a = k := Option.some.inj h
    obtain rfl | htail := List.mem_cons.mp hmem
    · exact le_refl _
    · exact le_of_lt ((List.pairwise_cons.mp sorted).1 j htail)

/-- A key's number fits a register. -/
theorem toNat_ofNat_key (k : KeyIx) : (BitVec.ofNat Config.regWidth k.val).toNat = k.val := by revert k; decide

/-- Settles O44: the wait goes by whether the pressed list is empty; any place in it can be the free value, and its head is its
smallest member. -/
theorem keyWaitRewindsOrReportsKey : Obligations.KeyWaitRewindsOrReportsKey := by
  refine fun x s => ⟨fun released => exec_ldVxK_of_none (State.pressed_eq_nil.mpr released), fun ⟨j, hj⟩ => ?_,
    fun k hk => exists_pickKey_anyPressed ((s.mem_pressed k).mpr hk), fun free k hk => ⟨?_, fun j hlt => ?_⟩⟩
  · obtain ⟨k, hk⟩ := exists_pickKey hj params.keyPick (Config.keyChoice s.draws)
    refine ⟨k, _, hk, (s.mem_pressed k).mp (pickKey_mem hk), exec_ldVxK_of_some hk, fun r => ?_, rfl, s.setReg_drawn_restore x _⟩
    rw [State.reg_drawn, State.toNat_reg_setReg, toNat_ofNat_key]
  · exact (s.mem_pressed k).mp (pickKey_mem hk)
  · exact Bool.eq_false_iff.mpr fun hj => absurd (pickKey_lowest_le hk hj) (not_le_of_gt hlt)

/-- Settles O45: the rewind undoes the advance of the fetch. -/
theorem keyWaitStepIsIdle : Obligations.KeyWaitStepIsIdle := by
  intro x s hf hp hw released
  have back : s.advance.rewind = s := by
    have : s.pc + 2 - 2 = s.pc := BitVec.add_sub_cancel _ _
    exact congrArg s.setPc this
  calc step s = exec (.ldVxK x) s.advance := step_of_wordAt hf hp rfl hw
    _ = .next s.advance.rewind := exec_ldVxK_of_none (State.pressed_eq_nil.mpr released)
    _ = .next s := by rw [back]

end Sys2Proof.Machine

/-! The transfers through `I` (spec/43_index_memory.md): the decimal store, the register store and the register load, a store and a load
through the same `I`, and a fetch of stored bytes. -/

namespace Sys2Proof.Machine

/-! ## Memory after a store of several bytes -/

theorem Memory.read_writeAll_add (m : Memory) (a : Nat) {bs : List Byte} {k : Nat} (hk : k < bs.length) :
    (m.writeAll a bs).read (a + k) = bs.getD k 0 := by
  rw [Memory.read_writeAll, if_pos ⟨Nat.le_add_right a k, Nat.add_lt_add_left hk a⟩, Nat.add_sub_cancel_left]

theorem Memory.read_writeAll_of_outside (m : Memory) {a q : Nat} {bs : List Byte} (h : q < a ∨ a + bs.length ≤ q) :
    (m.writeAll a bs).read q = m.read q := by
  rw [Memory.read_writeAll, if_neg (by omega)]

/-! ## Stores and reads, as they complete or fault -/

/-- `s` with the bytes `bs` in memory from `a` upwards. -/
def State.stored (s : State) (a : Nat) (bs : List Byte) : State := { s with mem := s.mem.writeAll a bs }

@[simp] theorem State.stored_mem (s : State) (a : Nat) (bs : List Byte) : (s.stored a bs).mem = s.mem.writeAll a bs := rfl

/-- Putting the old memory back undoes a store. -/
theorem State.stored_restore_mem (s : State) (a : Nat) (bs : List Byte) : { s.stored a bs with mem := s.mem } = s := rfl

theorem finish_storeBytes_of_le {s : State} {a : Nat} {bs : List Byte} (h : a + bs.length ≤ Config.memSize) :
    finish (storeBytes s a bs) = .next (s.stored a bs) := by
  rw [storeBytes_eq, if_pos (.inr h)]
  rfl

theorem finish_storeBytes_of_gt {s : State} {a : Nat} {bs : List Byte} (hbs : bs ≠ []) (h : Config.memSize < a + bs.length) :
    finish (storeBytes s a bs) = .fault (.outOfBounds .memWrite (max a Config.memSize)) := by
  rw [storeBytes_eq, if_neg (not_or_intro hbs (Nat.not_le_of_lt h))]
  rfl

/-- The bytes in memory from `a` upwards. -/
def State.bytesFrom (s : State) (a n : Nat) : List Byte := (List.range n).map (fun k => s.mem.read (a + k))

@[simp] theorem State.bytesFrom_length (s : State) (a n : Nat) : (s.bytesFrom a n).length = n := by simp [State.bytesFrom]

theorem State.bytesFrom_getD (s : State) (a : Nat) {n k : Nat} (h : k < n) : (s.bytesFrom a n).getD k 0 = s.mem.read (a + k) := by
  simp [State.bytesFrom, h]

/-- The first address out of memory, of those from `I` upwards, is the greater of `I` and `MEM_SIZE`. -/
theorem State.max_effAddr_eq_first {s : State} {k : Nat} (hk : s.effAddr k ≥ Config.memSize)
    (first : ∀ j, j < k → s.effAddr j < Config.memSize) : max (s.effAddr 0) Config.memSize = s.effAddr k := by
  rw [State.effAddr_zero]
  cases k with
  | zero => exact max_eq_left hk
  | succ k =>
    have := first k (Nat.lt_succ_self k)
    rw [State.effAddr_eq] at hk this ⊢
    rw [max_eq_right (by omega)]
    omega

/-! ## The meanings, through the operations of the state -/

theorem exec_ldB_of_lt {x : RegIx} {s : State} (h : s.effAddr 2 < Config.memSize) :
    exec (.ldB x) s = .next (s.stored (s.effAddr 0) (decimalDigits (s.reg x))) :=
  finish_storeBytes_of_le h

theorem exec_ldB_of_ge {x : RegIx} {s : State} (h : s.effAddr 2 ≥ Config.memSize) :
    exec (.ldB x) s = .fault (.outOfBounds .memWrite (max (s.effAddr 0) Config.memSize)) :=
  finish_storeBytes_of_gt (List.cons_ne_nil _ _) (Nat.lt_succ_of_le h)

theorem exec_stRegs_of_lt {x : RegIx} {s : State} (h : s.effAddr x.val < Config.memSize) :
    exec (.stRegs x) s = .next (s.stored (s.effAddr 0) (s.regsUpTo x)) :=
  finish_storeBytes_of_le (by rw [State.regsUpTo_length]; exact h)

theorem exec_stRegs_of_ge {x : RegIx} {s : State} (h : s.effAddr x.val ≥ Config.memSize) :
    exec (.stRegs x) s = .fault (.outOfBounds .memWrite (max (s.effAddr 0) Config.memSize)) :=
  finish_storeBytes_of_gt (List.ne_nil_of_length_pos (by simp)) (by rw [State.regsUpTo_length]; exact Nat.lt_succ_of_le h)

theorem exec_ldRegs_of_lt {x : RegIx} {s : State} (h : s.effAddr x.val < Config.memSize) :
    exec (.ldRegs x) s = .next (loadRegsFrom s 0 (s.bytesFrom (s.effAddr 0) (x.val + 1))) := by
  show execLdRegs x s = _
  rw [execLdRegs, readBytes_eq, if_pos (.inr h)]
  rfl

theorem exec_ldRegs_of_ge {x : RegIx} {s : State} (h : s.effAddr x.val ≥ Config.memSize) :
    exec (.ldRegs x) s = .fault (.outOfBounds .memRead (max (s.effAddr 0) Config.memSize)) := by
  have past : ¬ (x.val + 1 = 0 ∨ s.effAddr 0 + (x.val + 1) ≤ Config.memSize) :=
    not_or_intro (Nat.succ_ne_zero _) (Nat.not_le_of_lt (Nat.lt_succ_of_le h))
  show execLdRegs x s = _
  rw [execLdRegs, readBytes_eq, if_neg past]
  rfl

/-! ## What the transfers leave -/

/-- The registers after a load: V0 to Vx are the bytes from `I` upwards. -/
theorem reg_loadRegsFrom_bytesFrom (s : State) (x k : RegIx) :
    (loadRegsFrom s 0 (s.bytesFrom (s.effAddr 0) (x.val + 1))).reg k = if k ≤ x then s.mem.read (s.effAddr k.val) else s.reg k := by
  have fits : 0 + (s.bytesFrom (s.effAddr 0) (x.val + 1)).length ≤ Config.regCount := by
    rw [State.bytesFrom_length, Nat.zero_add]
    exact x.isLt
  rw [loadRegsFrom_reg _ _ _ fits, State.bytesFrom_length]
  by_cases h : k ≤ x
  · have hk : k.val < x.val + 1 := Nat.lt_succ_of_le h
    rw [if_pos ⟨Nat.zero_le _, by omega⟩, if_pos h, Nat.sub_zero, State.bytesFrom_getD _ _ hk]
    rfl
  · have hk : ¬ k.val < 0 + (x.val + 1) := by rw [Nat.zero_add]; exact fun hlt => h (Nat.le_of_lt_succ hlt)
    rw [if_neg (fun hin => hk hin.2), if_neg h]

/-- The bytes that a register store leaves: at `I + k` stands Vk. -/
theorem read_writeAll_regsUpTo (s : State) {x k : RegIx} (h : k ≤ x) :
    (s.mem.writeAll (s.effAddr 0) (s.regsUpTo x)).read (s.effAddr k.val) = s.reg k := by
  have hk : k.val < (s.regsUpTo x).length := by rw [State.regsUpTo_length]; exact Nat.lt_succ_of_le h
  exact (Memory.read_writeAll_add _ _ hk).trans (s.regsUpTo_getD x k h)

/-- The bytes that a decimal store leaves: at `I + k` stands digit `k`. -/
theorem read_writeAll_decimalDigits (s : State) (v : RegVal) {k : Nat} (hk : k < 3) :
    (s.mem.writeAll (s.effAddr 0) (decimalDigits v)).read (s.effAddr k) = (decimalDigits v).getD k 0 :=
  Memory.read_writeAll_add _ _ hk

/-- The three digits fit a byte. -/
theorem toNat_decimalDigits (v : RegVal) :
    ((decimalDigits v).getD 0 0).toNat = v.toNat / 100 ∧ ((decimalDigits v).getD 1 0).toNat = v.toNat / 10 % 10 ∧
      ((decimalDigits v).getD 2 0).toNat = v.toNat % 10 := by
  have := toNat_regVal_lt v
  exact ⟨Nat.mod_eq_of_lt (by omega), Nat.mod_eq_of_lt (by omega), Nat.mod_eq_of_lt (by omega)⟩

/-- A register store that completes had its last address in memory. -/
theorem exec_stRegs_eq_next {x : RegIx} {s t : State} (h : exec (.stRegs x) s = .next t) :
    s.effAddr x.val < Config.memSize ∧ t = s.stored (s.effAddr 0) (s.regsUpTo x) := by
  by_cases hlt : s.effAddr x.val < Config.memSize
  · rw [exec_stRegs_of_lt hlt] at h
    cases h
    exact ⟨hlt, rfl⟩
  · rw [exec_stRegs_of_ge (Nat.le_of_not_lt hlt)] at h
    cases h

/-! ## The obligations -/

/-- Settles O38: the store's bytes are the three digits. -/
theorem decimalStoreWritesThreeDigits : Obligations.DecimalStoreWritesThreeDigits := by
  intro x s
  obtain ⟨hundreds, tens, ones⟩ := toNat_decimalDigits (s.reg x)
  refine ⟨fun h => ⟨_, exec_ldB_of_lt h, ?_, ?_, ?_, fun a ha => ?_, s.stored_restore_mem _ _⟩, fun k hk hge first => ?_⟩
  · rw [State.stored_mem, read_writeAll_decimalDigits s _ (by decide), hundreds]
  · rw [State.stored_mem, read_writeAll_decimalDigits s _ (by decide), tens]
  · rw [State.stored_mem, read_writeAll_decimalDigits s _ (by decide), ones]
  · exact Memory.read_writeAll_of_outside _ ha
  · have past : s.effAddr 2 ≥ Config.memSize := hge.trans (Nat.add_le_add_left hk _)
    rw [exec_ldB_of_ge past, State.max_effAddr_eq_first hge first]

/-- Settles O39: the store's bytes are V0 to Vx. -/
theorem registerStoreWritesV0ToVx : Obligations.RegisterStoreWritesV0ToVx := by
  refine fun x s => ⟨fun h => ⟨_, exec_stRegs_of_lt h, fun k hk => read_writeAll_regsUpTo s hk, fun a ha => ?_,
    s.stored_restore_mem _ _⟩, fun k hk hge first => ?_⟩
  · exact Memory.read_writeAll_of_outside _ (by rw [State.regsUpTo_length]; exact ha)
  · have past : s.effAddr x.val ≥ Config.memSize := hge.trans (Nat.add_le_add_left hk _)
    rw [exec_stRegs_of_ge past, State.max_effAddr_eq_first hge first]

/-- Settles O40: the load writes registers alone, V0 to Vx with the bytes from `I` upwards. -/
theorem registerLoadReadsV0ToVx : Obligations.RegisterLoadReadsV0ToVx := by
  refine fun x s => ⟨fun h => ⟨_, exec_ldRegs_of_lt h, reg_loadRegsFrom_bytesFrom s x, ?_⟩, fun k hk hge first => ?_⟩
  · obtain ⟨w, hw⟩ := loadRegsFrom_frame (s.bytesFrom (s.effAddr 0) (x.val + 1)) s 0
    rw [hw]
  · have past : s.effAddr x.val ≥ Config.memSize := hge.trans (Nat.add_le_add_left hk _)
    rw [exec_ldRegs_of_ge past, State.max_effAddr_eq_first hge first]

/-- Settles O41: the load reads, at the address of the store, what the store has left there. -/
theorem storedRegistersLoadBack : Obligations.StoredRegistersLoadBack := by
  intro x s t u hs hmem hi
  obtain ⟨hlt, rfl⟩ := exec_stRegs_eq_next hs
  have addr (k : Nat) : u.effAddr k = s.effAddr k := by rw [State.effAddr, hi, State.effAddr]
  refine ⟨_, exec_ldRegs_of_lt (by rw [addr]; exact hlt), fun k hk => ?_⟩
  rw [reg_loadRegsFrom_bytesFrom, if_pos hk, addr, hmem]
  exact read_writeAll_regsUpTo s hk

/-- Settles O42: the fetch reads the two bytes that the store has left at its address. -/
theorem storedCodeIsFetched : Obligations.StoredCodeIsFetched := by
  intro x j k s t u hs hjk hkx hmem hpc
  obtain ⟨hlt, rfl⟩ := exec_stRegs_eq_next hs
  have hjx : j ≤ x := Fin.le_def.mpr (by have := Fin.le_def.mp hkx; omega)
  have next : u.pc.toNat + 1 = s.effAddr k.val := by rw [hpc, hjk]; rfl
  have inside : u.pc.toNat + 1 < Config.memSize := by
    rw [next]
    exact lt_of_le_of_lt (Nat.add_le_add_left (Fin.le_def.mp hkx) _) hlt
  refine ⟨_, _, fetch_of_lt inside, ?_, ?_⟩
  · rw [highByte_wordOfBytes, hmem, hpc]
    exact read_writeAll_regsUpTo s hjx
  · rw [lowByte_wordOfBytes, hmem, next]
    exact read_writeAll_regsUpTo s hkx

end Sys2Proof.Machine

/-! The sprite draw (spec/41_display.md): what it toggles, when it collides, when it faults, and a draw repeated. -/

namespace Sys2Proof.Machine

/-! ## The meaning, through the operations of the state -/

/-- The framebuffer that Dxyn draws in `s`, and whether a collision has occurred. -/
def State.drawing (s : State) (x y : RegIx) (n : Nat) : Drawing :=
  drawRows (s.reg x).toNat (s.reg y).toNat 0 (s.bytesFrom (s.effAddr 0) n) (s.fb, false)

/-- The state after Dxyn with its sprite in memory. -/
def State.drew (s : State) (x y : RegIx) (n : Nat) : State :=
  { s with fb := (s.drawing x y n).1 }.setReg Config.flagReg (flagByte (s.drawing x y n).2)

theorem exec_drw_of_mem {n : Nat} {s : State} (x y : RegIx) (h : n = 0 ∨ s.i.toNat + n ≤ Config.memSize) :
    exec (.drw x y n) s = .next (s.drew x y n) := by
  show execDrw x y n s = _
  rw [execDrw, readBytes_eq, State.effAddr_zero, if_pos h]
  rfl

theorem exec_drw_of_not_mem {n : Nat} {s : State} (x y : RegIx) (h : ¬ (n = 0 ∨ s.i.toNat + n ≤ Config.memSize)) :
    exec (.drw x y n) s = .fault (.outOfBounds .memRead (max (s.effAddr 0) Config.memSize)) := by
  show execDrw x y n s = _
  rw [execDrw, readBytes_eq, State.effAddr_zero, if_neg h]
  rfl

/-- A draw that completes had its sprite in memory. -/
theorem exec_drw_eq_next {x y : RegIx} {n : Nat} {s t : State} (h : exec (.drw x y n) s = .next t) : t = s.drew x y n := by
  by_cases hm : n = 0 ∨ s.i.toNat + n ≤ Config.memSize
  · rw [exec_drw_of_mem x y hm] at h
    cases h
    rfl
  · rw [exec_drw_of_not_mem x y hm] at h
    cases h

/-! ## The pixels and the flag after a draw of at most 15 rows (R143, R144) -/

/-- The sprite engine's hits are the pixels that the statements call covered. -/
theorem hitFrom_bytesFrom_iff_spriteCovers (x y : RegIx) (n : Nat) (s : State) (r : Fin Config.dispH) (c : Fin Config.dispW) :
    hitFrom (s.reg x).toNat (s.reg y).toNat 0 (s.bytesFrom (s.effAddr 0) n) r c ↔ spriteCovers x y n s r c := by
  have row_iff (row : Nat) : wrapRow (s.reg y).toNat (0 + row) = r ↔ r.val = ((s.reg y).toNat + row) % Config.dispH := by
    rw [Nat.zero_add, Fin.ext_iff, eq_comm]
    rfl
  have col_iff (col : Nat) : wrapCol (s.reg x).toNat col = c ↔ c.val = ((s.reg x).toNat + col) % Config.dispW := by
    rw [Fin.ext_iff, eq_comm]
    rfl
  have bit_eq {row : Nat} (h : row < n) (col : Nat) :
      spriteBit ((s.bytesFrom (s.effAddr 0) n).getD row 0) col = (s.mem.read (s.i.toNat + row)).getLsbD (7 - col) := by
    rw [State.bytesFrom_getD _ _ h]
    rfl
  constructor
  · rintro ⟨row, hrow, col, hcol, hr, hc, hb⟩
    rw [State.bytesFrom_length] at hrow
    exact ⟨row, col, hrow, hcol, (row_iff row).mp hr, (col_iff col).mp hc, bit_eq hrow col ▸ hb⟩
  · rintro ⟨row, col, hrow, hcol, hr, hc, hb⟩
    exact ⟨row, by rwa [State.bytesFrom_length], col, hcol, (row_iff row).mpr hr, (col_iff col).mpr hc, (bit_eq hrow col).trans hb⟩

section
variable {x y : RegIx} {n : Nat} {s : State} (hw : (Instr.drw x y n).wellFormed = true)
include hw

/-- A well-formed draw has fewer rows than the display, so no pixel is reached twice. -/
theorem sprite_rows_le : 0 + (s.bytesFrom (s.effAddr 0) n).length ≤ Config.dispH := by
  have hn : n < 16 := by simpa [Instr.wellFormed] using hw
  have : Config.dispH = 32 := rfl
  rw [State.bytesFrom_length]
  omega

theorem pixel_drew_of_covers {r : Fin Config.dispH} {c : Fin Config.dispW} (h : spriteCovers x y n s r c) :
    pixel (s.drew x y n).fb r c = !pixel s.fb r c :=
  pixel_drawRows_of_hit (s.fb, false) (sprite_rows_le hw) ((hitFrom_bytesFrom_iff_spriteCovers x y n s r c).mpr h)

theorem pixel_drew_of_not_covers {r : Fin Config.dispH} {c : Fin Config.dispW} (h : ¬ spriteCovers x y n s r c) :
    pixel (s.drew x y n).fb r c = pixel s.fb r c :=
  pixel_drawRows_of_not_hit (s.fb, false) (sprite_rows_le hw) (mt (hitFrom_bytesFrom_iff_spriteCovers x y n s r c).mp h)

theorem drawing_collides_iff : (s.drawing x y n).2 = true ↔ ∃ r c, spriteCovers x y n s r c ∧ pixel s.fb r c = true := by
  rw [State.drawing, collision_drawRows_iff _ (sprite_rows_le hw)]
  simp only [Bool.false_eq_true, false_or, hitFrom_bytesFrom_iff_spriteCovers]

theorem flag_drew_of_collision (h : ∃ r c, spriteCovers x y n s r c ∧ pixel s.fb r c = true) :
    (s.drew x y n).reg Config.flagReg = 1 := by
  rw [State.drew, State.reg_setReg_self, (drawing_collides_iff hw).mpr h]
  rfl

theorem flag_drew_of_no_collision (h : ¬ ∃ r c, spriteCovers x y n s r c ∧ pixel s.fb r c = true) :
    (s.drew x y n).reg Config.flagReg = 0 := by
  rw [State.drew, State.reg_setReg_self, Bool.eq_false_iff.mpr (mt (drawing_collides_iff hw).mp h)]
  rfl

end

theorem reg_drew_of_ne {x y q : RegIx} {n : Nat} {s : State} (hq : q ≠ Config.flagReg) : (s.drew x y n).reg q = s.reg q :=
  State.reg_setReg_ne _ _ _ _ hq

/-- A draw that leaves its coordinate registers covers the same pixels when it is repeated: it changes neither memory nor `I`. -/
theorem spriteCovers_drew_iff {x y : RegIx} {n : Nat} {s : State} (hx : (s.drew x y n).reg x = s.reg x)
    (hy : (s.drew x y n).reg y = s.reg y) (r : Fin Config.dispH) (c : Fin Config.dispW) :
    spriteCovers x y n (s.drew x y n) r c ↔ spriteCovers x y n s r c := by
  have hm : (s.drew x y n).mem = s.mem := rfl
  have hi : (s.drew x y n).i = s.i := rfl
  simp only [spriteCovers, hx, hy, hm, hi]

/-! ## The obligations -/

/-- Settles O22: the sprite engine's toggles and its collision, on the pixels that the set bits cover. -/
theorem drawTogglesCoveredPixels : Obligations.DrawTogglesCoveredPixels :=
  fun x y n s hw hm =>
    ⟨s.drew x y n, exec_drw_of_mem x y hm, fun _ _ => ⟨pixel_drew_of_covers hw, pixel_drew_of_not_covers hw⟩,
      flag_drew_of_collision hw, flag_drew_of_no_collision hw, fun _ => reg_drew_of_ne, rfl⟩

/-- Settles O23: the rows are read in order, and the first that is out of memory faults. -/
theorem drawFaultsAtFirstRowPastMemory : Obligations.DrawFaultsAtFirstRowPastMemory := by
  intro x y n row s hrow hge first
  have past : ¬ (n = 0 ∨ s.i.toNat + n ≤ Config.memSize) := by omega
  rw [exec_drw_of_not_mem x y past, State.max_effAddr_eq_first (k := row) hge first, State.effAddr_eq]

/-- Settles O24: the second draw toggles the covered pixels back, and a pixel that the first one lit is one it reaches. -/
theorem drawTwiceRestoresDisplay : Obligations.DrawTwiceRestoresDisplay := by
  intro x y n s t u hw hst hx hy htu
  obtain rfl := exec_drw_eq_next hst
  obtain rfl := exec_drw_eq_next htu
  have covers_iff := spriteCovers_drew_iff hx hy
  constructor
  · refine framebuffer_ext fun r c => ?_
    by_cases h : spriteCovers x y n s r c
    · rw [pixel_drew_of_covers hw ((covers_iff r c).mpr h), pixel_drew_of_covers hw h, Bool.not_not]
    · rw [pixel_drew_of_not_covers hw (mt (covers_iff r c).mp h), pixel_drew_of_not_covers hw h]
  · rintro ⟨r, c, dark, lit⟩
    refine flag_drew_of_collision hw ⟨r, c, (covers_iff r c).mpr ?_, lit⟩
    by_contra h
    rw [pixel_drew_of_not_covers hw h, dark] at lit
    exact Bool.false_ne_true lit

end Sys2Proof.Machine

/-! What an instruction and a step can do, said once: an instruction completes within its footprint or faults from the cause that the
table of R240 gives, and it is never refused. The frames over all instructions and the two statements about the step's outcomes are read
off it. -/

namespace Sys2Proof.Machine

/-! ## Staying within a footprint -/

/-- `t` differs from `s` only in what the footprint names, and its memory is canonical if that of `s` is. -/
structure Framed (fp : Footprint) (s t : State) : Prop where
  regs      : ∀ r, r ∉ fp.regs → t.reg r = s.reg r
  bytes     : ∀ a, ¬ (s.effAddr 0 ≤ a ∧ a < s.effAddr 0 + fp.stored) → t.mem.read a = s.mem.read a
  canonical : s.mem.wf → t.mem.wf
  pc        : fp.pc = false → t.pc = s.pc
  addr      : fp.addr = false → t.i = s.i
  slots     : fp.slots = false → t.stack = s.stack
  sp        : fp.sp = false → t.sp = s.sp
  display   : fp.display = false → t.fb = s.fb
  dt        : fp.dt = false → t.dt = s.dt
  st        : fp.st = false → t.st = s.st
  key       : t.key = s.key
  fault     : t.fault = s.fault
  draws     : fp.draws = false → t.draws = s.draws

/-- A condition on what a footprint does not name is void where the footprint names it. -/
theorem of_named {b : Bool} {p : Prop} (h : b = true) : b = false → p := fun h' => absurd (h.symm.trans h') Bool.noConfusion

namespace Framed

variable {fp : Footprint} {s t : State}

theorem refl (fp : Footprint) (s : State) : Framed fp s s where
  regs _ _ := rfl
  bytes _ _ := rfl
  canonical h := h
  pc _ := rfl
  addr _ := rfl
  slots _ := rfl
  sp _ := rfl
  display _ := rfl
  dt _ := rfl
  st _ := rfl
  key := rfl
  fault := rfl
  draws _ := rfl

theorem setReg {r : RegIx} (hr : r ∈ fp.regs) (b : RegVal) (h : Framed fp s t) : Framed fp s (t.setReg r b) :=
  { h with regs := fun q hq => (t.reg_setReg_ne q r b fun e => hq (e ▸ hr)).trans (h.regs q hq) }

theorem setPc (hn : fp.pc = true) (a : PcVal) (h : Framed fp s t) : Framed fp s (t.setPc a) := { h with pc := of_named hn }

theorem skipIf (hn : fp.pc = true) (c : Bool) (h : Framed fp s t) : Framed fp s (t.skipIf c) :=
  t.skipIf_eq c ▸ h.setPc hn _

theorem setI (hn : fp.addr = true) (a : AddrVal) (h : Framed fp s t) : Framed fp s (t.setI a) := { h with addr := of_named hn }

theorem setDt (hn : fp.dt = true) (b : TimerVal) (h : Framed fp s t) : Framed fp s (t.setDt b) := { h with dt := of_named hn }

theorem setSt (hn : fp.st = true) (b : TimerVal) (h : Framed fp s t) : Framed fp s (t.setSt b) := { h with st := of_named hn }

theorem setFb (hn : fp.display = true) (fb : Framebuffer) (h : Framed fp s t) : Framed fp s { t with fb := fb } :=
  { h with display := of_named hn }

theorem drawn (hn : fp.draws = true) (h : Framed fp s t) : Framed fp s t.drawn := { h with draws := of_named hn }

theorem called (hpc : fp.pc = true) (hslots : fp.slots = true) (hsp : fp.sp = true) (nnn : Addr12) (top : Fin Config.stackDepth)
    (h : Framed fp s t) : Framed fp s (t.called nnn top) :=
  { h with pc := of_named hpc, slots := of_named hslots, sp := of_named hsp }

theorem returned (hpc : fp.pc = true) (hsp : fp.sp = true) (top : Fin Config.stackDepth) (h : Framed fp s t) :
    Framed fp s (t.returned top) :=
  { h with pc := of_named hpc, sp := of_named hsp }

theorem writeFlagged {x : RegIx} (hx : x ∈ fp.regs) (hf : Config.flagReg ∈ fp.regs) (order : VfOrder) (res flag : RegVal)
    (h : Framed fp s t) : Framed fp s (writeFlagged order x res flag t) := by
  cases order with
  | flagLast => exact (h.setReg hx res).setReg hf flag
  | resultLast => exact (h.setReg hf flag).setReg hx res

theorem drew (hn : fp.display = true) (hf : Config.flagReg ∈ fp.regs) (x y : RegIx) (n : Nat) : Framed fp s (s.drew x y n) :=
  ((refl fp s).setFb hn _).setReg hf _

theorem stored {bs : List Byte} (hl : bs.length = fp.stored) (hm : s.effAddr 0 + bs.length ≤ Config.memSize) :
    Framed fp s (s.stored (s.effAddr 0) bs) :=
  { refl fp s with
    bytes := fun a ha => Memory.read_writeAll_of_outside _ (by rw [hl]; omega)
    canonical := fun hwf => Memory.wf_writeAll bs hwf hm }

theorem loadRegsFrom {bs : List Byte} {k : Nat} (hr : ∀ r ∉ fp.regs, (loadRegsFrom s k bs).reg r = s.reg r) :
    Framed fp s (loadRegsFrom s k bs) := by
  obtain ⟨w, hw⟩ := loadRegsFrom_frame bs s k
  rw [hw] at hr ⊢
  exact { refl fp s with regs := hr }

end Framed

/-! ## What an instruction can do -/

/-- Why an instruction raises a fault, by the table of R240: what holds in the state it runs on, and what the value recorded is. -/
def FaultCause (i : Instr) (s : State) : Fault → Prop
  | .unrecognizedOpcode _ => False
  | .outOfBounds .fetch _ => False
  | .outOfBounds .stackOverflow v => v = Config.stackDepth ∧ s.sp.val = v ∧ ∃ nnn, i = .call nnn
  | .outOfBounds .stackUnderflow v => v = 0 ∧ s.sp.val = v ∧ i = .ret
  | .outOfBounds .memRead a => a ≥ Config.memSize ∧
      ((∃ x y n, i = .drw x y n ∧ s.i.toNat ≤ a ∧ a < s.i.toNat + n) ∨
        ∃ x, i = .ldRegs x ∧ s.i.toNat ≤ a ∧ a ≤ s.i.toNat + x.val)
  | .outOfBounds .memWrite a => a ≥ Config.memSize ∧ s.i.toNat ≤ a ∧
      ((∃ x, i = .ldB x ∧ a ≤ s.i.toNat + 2) ∨ ∃ x, i = .stRegs x ∧ a ≤ s.i.toNat + x.val)
  | .outOfBounds .keyIndex k => k ≥ Config.numKeys ∧ ∃ x, (i = .skp x ∨ i = .sknp x) ∧ k = (s.reg x).toNat
  | .outOfBounds .addrOverflow v => v > 0xFFFF ∧ ∃ x, i = .addI x ∧ v = s.i.toNat + (s.reg x).toNat

/-- The outcome of an instruction: a next state within its footprint, or a fault from its cause. -/
inductive ExecResult (i : Instr) (s : State) : Prop where
  | completes (t : State) (eq : exec i s = .next t) (framed : Framed (footprint i) s t)
  | faults (f : Fault) (eq : exec i s = .fault f) (cause : FaultCause i s f)

namespace ExecResult

/-- An instruction that writes Vx alone. -/
theorem of_setReg {i : Instr} {s : State} {r : RegIx} {b : RegVal} (eq : exec i s = .next (s.setReg r b))
    (hr : r ∈ (footprint i).regs) : ExecResult i s :=
  completes _ eq ((Framed.refl _ s).setReg hr b)

/-- An instruction that writes a result and the flag. -/
theorem of_writeFlagged {i : Instr} {s : State} {x : RegIx} {res flag : RegVal}
    (eq : exec i s = .next (Machine.writeFlagged params.vfOrder x res flag s)) (hr : (footprint i).regs = [x, Config.flagReg]) :
    ExecResult i s :=
  completes _ eq ((Framed.refl _ s).writeFlagged (by simp [hr]) (by simp [hr]) _ _ _)

/-- A skip. -/
theorem of_skipIf {i : Instr} {s : State} {c : Bool} (eq : exec i s = .next (s.skipIf c)) (hn : (footprint i).pc = true) :
    ExecResult i s :=
  completes _ eq ((Framed.refl _ s).skipIf hn c)

theorem ret (s : State) : ExecResult .ret s := by
  obtain ⟨empty, eq⟩ | ⟨top, eq⟩ := exec_ret_cases s
  · exact faults _ eq ⟨rfl, empty, rfl⟩
  · exact completes _ eq ((Framed.refl _ s).returned rfl rfl top)

theorem call (nnn : Addr12) (s : State) : ExecResult (.call nnn) s := by
  obtain ⟨full, eq⟩ | ⟨top, eq⟩ := exec_call_cases nnn s
  · exact faults _ eq ⟨rfl, full, nnn, rfl⟩
  · exact completes _ eq ((Framed.refl _ s).called rfl rfl rfl nnn top)

theorem drw (x y : RegIx) (n : Nat) (s : State) : ExecResult (.drw x y n) s := by
  by_cases hm : n = 0 ∨ s.i.toNat + n ≤ Config.memSize
  · exact completes _ (exec_drw_of_mem x y hm) (Framed.drew rfl (by simp [footprint]) x y n)
  · refine faults _ (exec_drw_of_not_mem x y hm) ⟨le_max_right _ _, .inl ⟨x, y, n, rfl, le_max_left _ _, ?_⟩⟩
    rw [State.effAddr_zero]
    omega

theorem skp (x : RegIx) (s : State) : ExecResult (.skp x) s := by
  obtain ⟨hk, eq⟩ | ⟨c, eq⟩ := exec_skp_cases x s
  · exact faults _ eq ⟨hk, x, .inl rfl, rfl⟩
  · exact of_skipIf eq rfl

theorem sknp (x : RegIx) (s : State) : ExecResult (.sknp x) s := by
  obtain ⟨hk, eq⟩ | ⟨c, eq⟩ := exec_sknp_cases x s
  · exact faults _ eq ⟨hk, x, .inr rfl, rfl⟩
  · exact of_skipIf eq rfl

theorem ldVxK (x : RegIx) (s : State) : ExecResult (.ldVxK x) s := by
  cases h : pickKey params.keyPick (Config.keyChoice s.draws) s.pressed with
  | none =>
    have released := (pickKey_eq_none _ _ _).mp h
    exact completes _ (exec_ldVxK_of_none released) ((Framed.refl _ s).setPc rfl _)
  | some k => exact completes _ (exec_ldVxK_of_some h) (((Framed.refl _ s).setReg (by simp [footprint]) _).drawn rfl)

theorem addI (x : RegIx) (s : State) : ExecResult (.addI x) s := by
  by_cases fits : s.i.toNat + (s.reg x).toNat ≤ 0xFFFF
  · exact completes _ (exec_addI_of_le fits) ((Framed.refl _ s).setI rfl _)
  · have exceeds := Nat.lt_of_not_le fits
    exact faults _ (addressOverflowFaults x s exceeds) ⟨exceeds, x, rfl, rfl⟩

/-- The last address of a transfer is out of memory, so the first one that is lies among its addresses. -/
theorem max_effAddr_le {s : State} {k : Nat} (h : s.effAddr k ≥ Config.memSize) :
    max (s.effAddr 0) Config.memSize ≤ s.i.toNat + k :=
  max_le (Nat.le_add_right _ _) h

theorem ldB (x : RegIx) (s : State) : ExecResult (.ldB x) s := by
  by_cases h : s.effAddr 2 < Config.memSize
  · exact completes _ (exec_ldB_of_lt h) (Framed.stored rfl h)
  · have hge := Nat.le_of_not_lt h
    exact faults _ (exec_ldB_of_ge hge) ⟨le_max_right _ _, le_max_left _ _, .inl ⟨x, rfl, max_effAddr_le hge⟩⟩

theorem stRegs (x : RegIx) (s : State) : ExecResult (.stRegs x) s := by
  by_cases h : s.effAddr x.val < Config.memSize
  · exact completes _ (exec_stRegs_of_lt h) (Framed.stored (s.regsUpTo_length x) (by rw [State.regsUpTo_length]; exact h))
  · have hge := Nat.le_of_not_lt h
    exact faults _ (exec_stRegs_of_ge hge) ⟨le_max_right _ _, le_max_left _ _, .inr ⟨x, rfl, max_effAddr_le hge⟩⟩

theorem ldRegs (x : RegIx) (s : State) : ExecResult (.ldRegs x) s := by
  by_cases h : s.effAddr x.val < Config.memSize
  · refine completes _ (exec_ldRegs_of_lt h) (Framed.loadRegsFrom fun r hr => ?_)
    have above : ¬ r ≤ x := by simpa [footprint] using hr
    rw [reg_loadRegsFrom_bytesFrom, if_neg above]
  · have hge := Nat.le_of_not_lt h
    exact faults _ (exec_ldRegs_of_ge hge) ⟨le_max_right _ _, .inr ⟨x, rfl, le_max_left _ _, max_effAddr_le hge⟩⟩

end ExecResult

/-- Every instruction, in every state, completes within its footprint or faults from its cause. -/
theorem exec_result (i : Instr) (s : State) : ExecResult i s := by
  have start := Framed.refl (footprint i) s
  cases i with
  | nop => exact .completes _ (exec_nop s) start
  | cls => exact .completes _ (exec_cls s) (start.setFb rfl _)
  | ret => exact .ret s
  | jp nnn => exact .completes _ (exec_jp nnn s) (start.setPc rfl _)
  | call nnn => exact .call nnn s
  | seByte x kk => exact .of_skipIf (exec_seByte x kk s) rfl
  | sneByte x kk => exact .of_skipIf (exec_sneByte x kk s) rfl
  | seReg x y => exact .of_skipIf (exec_seReg x y s) rfl
  | ldByte x kk => exact .of_setReg (exec_ldByte x kk s) (List.mem_singleton_self x)
  | addByte x kk => exact .of_setReg (exec_addByte x kk s) (List.mem_singleton_self x)
  | ldReg x y => exact .of_setReg (exec_ldReg x y s) (List.mem_singleton_self x)
  | orReg x y => exact .of_setReg (exec_orReg x y s) (List.mem_singleton_self x)
  | andReg x y => exact .of_setReg (exec_andReg x y s) (List.mem_singleton_self x)
  | xorReg x y => exact .of_setReg (exec_xorReg x y s) (List.mem_singleton_self x)
  | addReg x y => exact .of_writeFlagged (exec_addReg x y s) rfl
  | sub x y => exact .of_writeFlagged (exec_sub x y s) rfl
  | shr x => exact .of_writeFlagged (exec_shr x s) rfl
  | subn x y => exact .of_writeFlagged (exec_subn x y s) rfl
  | shl x => exact .of_writeFlagged (exec_shl x s) rfl
  | sneReg x y => exact .of_skipIf (exec_sneReg x y s) rfl
  | ldI nnn => exact .completes _ (exec_ldI nnn s) (start.setI rfl _)
  | jpV0 nnn => exact .completes _ (exec_jpV0 nnn s) (start.setPc rfl _)
  | rnd x kk => exact .completes _ (exec_rnd x kk s) ((start.setReg (List.mem_singleton_self x) _).drawn rfl)
  | drw x y n => exact .drw x y n s
  | skp x => exact .skp x s
  | sknp x => exact .sknp x s
  | ldVxDt x => exact .of_setReg (exec_ldVxDt x s) (List.mem_singleton_self x)
  | ldVxK x => exact .ldVxK x s
  | ldDtVx x => exact .completes _ (exec_ldDtVx x s) (start.setDt rfl _)
  | ldStVx x => exact .completes _ (exec_ldStVx x s) (start.setSt rfl _)
  | addI x => exact .addI x s
  | ldF x => exact .completes _ (exec_ldF x s) (start.setI rfl _)
  | ldB x => exact .ldB x s
  | stRegs x => exact .stRegs x s
  | ldRegs x => exact .ldRegs x s

theorem framed_of_exec {i : Instr} {s t : State} (h : exec i s = .next t) : Framed (footprint i) s t := by
  cases exec_result i s with
  | completes u eq framed =>
    cases h.symm.trans eq
    exact framed
  | faults f eq _ => cases h.symm.trans eq

theorem cause_of_exec {i : Instr} {s : State} {f : Fault} (h : exec i s = .fault f) : FaultCause i s f := by
  cases exec_result i s with
  | completes u eq _ => cases h.symm.trans eq
  | faults g eq cause =>
    cases h.symm.trans eq
    exact cause

/-! ## What a step can do (R94) -/

/-- A step of an unfaulted machine ends in the fetch, in the decoder, or in the decoded instruction on the fetched state. -/
theorem step_cases {s : State} (hf : s.fault = none) :
    (s.pc.toNat + 1 ≥ Config.memSize ∧ step s = .fault (.outOfBounds .fetch s.pc.toNat)) ∨
    (decodeWord (s.wordAt s.pc.toNat) = none ∧ step s = .fault (.unrecognizedOpcode (s.wordAt s.pc.toNat))) ∨
    ∃ i, decodeWord (s.wordAt s.pc.toNat) = some i ∧ step s = exec i s.advance := by
  by_cases hp : s.pc.toNat + 1 < Config.memSize
  · cases hd : decodeWord (s.wordAt s.pc.toNat) with
    | none => exact .inr (.inl ⟨rfl, step_of_decodeWord_eq_none hf hp hd⟩)
    | some i => exact .inr (.inr ⟨i, rfl, step_of_decodeWord_eq_some hf hp hd⟩)
  · exact .inl ⟨Nat.le_of_not_lt hp, step_of_pc_ge hf (Nat.le_of_not_lt hp)⟩

/-! ## The obligations -/

/-- Settles O47: the footprint's registers. -/
theorem instructionsWriteOnlyTheirRegisters : Obligations.InstructionsWriteOnlyTheirRegisters :=
  fun _ _ _ h => (framed_of_exec h).regs

/-- Settles O48: the footprint's bytes. -/
theorem instructionsStoreOnlyTheirBytes : Obligations.InstructionsStoreOnlyTheirBytes :=
  fun _ _ _ h => (framed_of_exec h).bytes

/-- Settles O49: the footprint's other elements. -/
theorem instructionsKeepOtherElements : Obligations.InstructionsKeepOtherElements := by
  intro i s t h
  obtain ⟨-, -, -, pc, addr, slots, sp, display, dt, st, key, fault, draws⟩ := framed_of_exec h
  exact ⟨pc, addr, slots, sp, display, dt, st, key, fault, draws⟩

/-- Settles O9: the fetch and the decoder fault, and no instruction is refused. -/
theorem unfaultedStepIsNeverRefused : Obligations.UnfaultedStepIsNeverRefused := by
  intro s hf
  obtain ⟨-, hs⟩ | ⟨-, hs⟩ | ⟨i, -, hs⟩ := step_cases hf
  · exact .inr ⟨_, hs⟩
  · exact .inr ⟨_, hs⟩
  · rw [hs]
    cases exec_result i s.advance with
    | completes t eq _ => exact .inl ⟨t, eq⟩
    | faults f eq _ => exact .inr ⟨f, eq⟩

/-- Settles O10: a fault of the step is the fetch's, the decoder's, or the instruction's from its cause; the fetch's advance changes
nothing that a cause speaks of. -/
theorem stepFaultsOnlyFromTheirCause : Obligations.StepFaultsOnlyFromTheirCause := by
  intro s f h
  cases hf : s.fault with
  | some g => cases h.symm.trans (step_of_fault hf)
  | none =>
    obtain ⟨hp, hs⟩ | ⟨hd, hs⟩ | ⟨i, hd, hs⟩ := step_cases hf
    · cases h.symm.trans hs
      exact .inl ⟨rfl, hp⟩
    · cases h.symm.trans hs
      exact .inr (.inl ⟨rfl, hd⟩)
    · have cause := cause_of_exec (hs.symm.trans h)
      refine .inr (.inr ⟨i, hd, ?_⟩)
      cases f with
      | unrecognizedOpcode => exact cause
      | outOfBounds kind v => cases kind <;> exact cause

end Sys2Proof.Machine

/-! Reset, the host's operations that can fault, and a faulted machine (spec/10_state.md R38, spec/60_exceptions.md R241, R252, R254,
spec/70_reset_and_hazards.md R280, R281). -/

namespace Sys2Proof.Machine

/-! ## Reset -/

/-- An address of the glyph atlas holds its byte of `FONT` after reset. -/
theorem initialByte_fontBase_add {k : Nat} (h : k < params.font.length) : initialByte (Config.fontBase + k) = params.font[k] := by
  have inside : Config.fontBase ≤ Config.fontBase + k ∧ Config.fontBase + k < Config.fontBase + Config.fontLen :=
    ⟨Nat.le_add_right _ _, Nat.add_lt_add_left h _⟩
  rw [initialByte, if_pos inside, Nat.add_sub_cancel_left, List.getD_eq_getElem _ _ h]

/-- Above the glyph atlas memory is 0 after reset. -/
theorem initialByte_of_ge {a : Nat} (h : Config.fontBase + Config.fontLen ≤ a) : initialByte a = 0 :=
  if_neg fun inside => Nat.not_lt_of_le h inside.2

/-- Settles O53: memory lists nothing after reset, so it reads as the atlas and 0 above; every vector repeats its one value. -/
theorem resetStateIsAsListed : Obligations.ResetStateIsAsListed :=
  ⟨rfl, rfl, rfl, fun _ => initialByte_fontBase_add, fun _ h _ => initialByte_of_ge h, by decide, rfl, rfl, by decide,
    pixel_darkScreen, rfl, rfl, by decide, rfl⟩

theorem hostCall_reset (s : State) : hostCall .reset s = .next (hostReset s, .none) := rfl

/-- Settles O54: the counter is the one element that `reset()` keeps. -/
theorem resetIsFreshInstance : Obligations.ResetIsFreshInstance :=
  fun s => ⟨hostReset s, hostCall_reset s, rfl, rfl⟩

/-! ## Host operations that can fault -/

theorem hostCall_of_fault {c : HostCall} {s : State} {f : Fault} (h : hostState c s = .fault f) : hostCall c s = .fault f := by
  rw [hostCall, h]

theorem hostCall_of_refused {c : HostCall} {s : State} {r : Refusal} (h : hostState c s = .refused r) :
    hostCall c s = .refused r := by
  rw [hostCall, h]

theorem hostState_keypress_of_key {s : State} (hf : s.fault = none) (k : KeyIx) (p : Bool) :
    hostState (.keypress k.val p) s = .next (s.setKey k p) := by
  rw [hostState, unlessFaulted_of_none hf, hostKeypress, keyIndex_of_lt k.isLt]

theorem hostState_keypress_of_ge {s : State} (hf : s.fault = none) {index : Nat} (h : index ≥ Config.numKeys) (p : Bool) :
    hostState (.keypress index p) s = .fault (.outOfBounds .keyIndex index) := by
  rw [hostState, unlessFaulted_of_none hf, hostKeypress, keyIndex_of_ge (Nat.not_lt_of_le h)]
  rfl

/-- The largest image ends where memory ends. -/
theorem load_fits {data : List Byte} (h : data.length ≤ Config.maxImage) : Config.loadAddr + data.length ≤ Config.memSize := by
  rw [Config.maxImage_eq] at h
  rw [Config.loadAddr_eq, Config.memSize_eq]
  omega

theorem hostState_load_of_le {s : State} (hf : s.fault = none) {data : List Byte} (h : data.length ≤ Config.maxImage) :
    hostState (.load data) s = .next (s.stored Config.loadAddr data) := by
  rw [hostState, unlessFaulted_of_none hf, hostLoad, if_neg (Nat.not_lt_of_le h), finish_storeBytes_of_le (load_fits h)]

theorem hostState_load_of_gt {s : State} (hf : s.fault = none) {data : List Byte} (h : data.length > Config.maxImage) :
    hostState (.load data) s = .fault (.outOfBounds .memWrite (Config.loadAddr + data.length - 1)) := by
  rw [hostState, unlessFaulted_of_none hf, hostLoad, if_pos h]
  rfl

/-- Putting the old keypad back undoes a key write. -/
theorem State.setKey_restore_key (s : State) (k : KeyIx) (p : Bool) : { s.setKey k p with key := s.key } = s := rfl

/-- Settles O57: an index is a key's number or past the keypad. -/
theorem keypressSetsOneKey : Obligations.KeypressSetsOneKey :=
  fun s p hf => ⟨fun k => ⟨_, hostCall_eq_next.mpr ⟨hostState_keypress_of_key hf k p, rfl⟩, fun j => s.key_setKey j k p,
    s.setKey_restore_key k p⟩, fun _ h => hostCall_of_fault (hostState_keypress_of_ge hf h p)⟩

/-- Settles O58: an image that fits is one store of its bytes at the load address. -/
theorem loadCopiesImage : Obligations.LoadCopiesImage := by
  refine fun data s hf => ⟨fun h => ⟨_, hostCall_eq_next.mpr ⟨hostState_load_of_le hf h, rfl⟩, fun k hk => ?_, fun a ha => ?_,
    s.stored_restore_mem _ _⟩, fun h => hostCall_of_fault (hostState_load_of_gt hf h)⟩
  · rw [State.stored_mem, Memory.read_writeAll_add _ _ hk, List.getD_eq_getElem _ _ hk]
  · exact Memory.read_writeAll_of_outside _ ha

/-! ## A faulted machine (R241) -/

theorem afterQuery_of_fault {s : State} {f : Fault} (hf : s.fault = some f) : afterQuery s = s.drawn := by
  simp only [afterQuery, hf]

theorem displayView_of_fault {s : State} {f : Fault} (hf : s.fault = some f) : displayView s = Config.faultedDisplay s.draws := by
  simp only [displayView, hf]

theorem soundView_of_fault {s : State} {f : Fault} (hf : s.fault = some f) : soundView s = Config.faultedSound s.draws := by
  simp only [soundView, hf]

/-- The operations that a faulted machine refuses. -/
theorem hostState_of_fault {s : State} {f : Fault} (hf : s.fault = some f) {c : HostCall}
    (hc : c = .tick ∨ c = .tickTimers ∨ (∃ k p, c = .keypress k p) ∨ ∃ data, c = .load data) :
    hostState c s = .refused .faultedState := by
  obtain rfl | rfl | ⟨k, p, rfl⟩ | ⟨data, rfl⟩ := hc
  · exact step_of_fault hf
  · rw [hostState, unlessFaulted_of_some hf]
  · rw [hostState, unlessFaulted_of_some hf]
  · rw [hostState, unlessFaulted_of_some hf]

/-- A faulted machine completes nothing but `reset` and the queries. -/
theorem hostState_eq_next_of_fault {s t : State} {f : Fault} (hf : s.fault = some f) {c : HostCall} (h : hostState c s = .next t) :
    c = .reset ∨ t = s.drawn := by
  have query : afterQuery s = s.drawn := afterQuery_of_fault hf
  cases c with
  | reset => exact .inl rfl
  | getDisplay | shouldPlaySound =>
    rw [hostState, query] at h
    cases h
    exact .inr rfl
  | load | tick | tickTimers | keypress =>
    rw [hostState_of_fault hf (by simp)] at h
    cases h

/-- Settles O59: the refusals and the queries' answers are the branches for a faulted state; a query keeps `fault`, and a fault sets it
again. -/
theorem faultedMachineOnlyResets : Obligations.FaultedMachineOnlyResets := by
  refine fun s f hf => ⟨fun c hc => hostCall_of_refused (hostState_of_fault hf hc), ⟨s.drawn, ?_, ?_, rfl, rfl⟩,
    fun c t hst ht => ?_⟩
  · rw [hostCall_getDisplay, afterQuery_of_fault hf, displayView_of_fault hf]
  · rw [hostCall_shouldPlaySound, afterQuery_of_fault hf, soundView_of_fault hf]
  · obtain hnext | ⟨g, any, -, -, rfl⟩ := hst
    · obtain hreset | rfl := hostState_eq_next_of_fault hf hnext
      · exact hreset
      · exact absurd (hf.symm.trans ht) (Option.some_ne_none f)
    · exact absurd ht (Option.some_ne_none g)

end Sys2Proof.Machine

/-! The invariants (spec/10_state.md R25, spec/40_control_flow.md R121, R123): what an instruction does to `pc` and to the slots, the step
lemma, and the step lemma of the machine under its host, from which every reachable state follows. -/

namespace Sys2Proof.Machine

/-! ## The instructions that write `pc`, when they complete -/

theorem exec_ret_eq_next {s t : State} (h : exec .ret s = .next t) : ∃ top, t = s.returned top := by
  obtain ⟨-, eq⟩ | ⟨top, eq⟩ := exec_ret_cases s
  · cases h.symm.trans eq
  · cases h.symm.trans eq
    exact ⟨top, rfl⟩

theorem exec_call_eq_next {nnn : Addr12} {s t : State} (h : exec (.call nnn) s = .next t) : ∃ top, t = s.called nnn top := by
  obtain ⟨-, eq⟩ | ⟨top, eq⟩ := exec_call_cases nnn s
  · cases h.symm.trans eq
  · cases h.symm.trans eq
    exact ⟨top, rfl⟩

theorem exec_skp_eq_next {x : RegIx} {s t : State} (h : exec (.skp x) s = .next t) : ∃ c, t = s.skipIf c := by
  obtain ⟨-, eq⟩ | ⟨c, eq⟩ := exec_skp_cases x s
  · cases h.symm.trans eq
  · cases h.symm.trans eq
    exact ⟨c, rfl⟩

theorem exec_sknp_eq_next {x : RegIx} {s t : State} (h : exec (.sknp x) s = .next t) : ∃ c, t = s.skipIf c := by
  obtain ⟨-, eq⟩ | ⟨c, eq⟩ := exec_sknp_cases x s
  · cases h.symm.trans eq
  · cases h.symm.trans eq
    exact ⟨c, rfl⟩

theorem pc_of_exec_ldVxK {x : RegIx} {s t : State} (h : exec (.ldVxK x) s = .next t) : t.pc = s.pc ∨ t.pc = s.pc - 2 := by
  cases hk : pickKey params.keyPick (Config.keyChoice s.draws) s.pressed with
  | none =>
    rw [exec_ldVxK_of_none ((pickKey_eq_none _ _ _).mp hk)] at h
    cases h
    exact .inr rfl
  | some k =>
    rw [exec_ldVxK_of_some hk] at h
    cases h
    exact .inl rfl

/-- What a completed instruction leaves in `pc`: a 12-bit address, the sum of Bnnn, a slot, or the `pc` it ran with, moved by at most
2. -/
theorem pc_of_exec {i : Instr} {s t : State} (h : exec i s = .next t) :
    t.pc = s.pc ∨ t.pc = s.pc + 2 ∨ t.pc = s.pc - 2 ∨ (∃ nnn, t.pc = zextAddr nnn) ∨
      (∃ nnn, t.pc = indexedTarget (s.reg 0) nnn) ∨ ∃ top : Fin Config.stackDepth, t.pc = s.stack[top] := by
  have skip (c : Bool) : (s.skipIf c).pc = s.pc ∨ (s.skipIf c).pc = s.pc + 2 := by
    cases c with
    | false => exact .inl rfl
    | true => exact .inr rfl
  cases i with
  | ret =>
    obtain ⟨top, rfl⟩ := exec_ret_eq_next h
    exact .inr (.inr (.inr (.inr (.inr ⟨top, rfl⟩))))
  | call nnn =>
    obtain ⟨top, rfl⟩ := exec_call_eq_next h
    exact .inr (.inr (.inr (.inl ⟨nnn, rfl⟩)))
  | jp nnn =>
    cases h
    exact .inr (.inr (.inr (.inl ⟨nnn, rfl⟩)))
  | jpV0 nnn =>
    cases h
    exact .inr (.inr (.inr (.inr (.inl ⟨nnn, rfl⟩))))
  | ldVxK x =>
    obtain same | back := pc_of_exec_ldVxK h
    · exact .inl same
    · exact .inr (.inr (.inl back))
  | seByte | sneByte | seReg | sneReg =>
    cases h
    exact (skip _).imp_right .inl
  | skp x =>
    obtain ⟨c, rfl⟩ := exec_skp_eq_next h
    exact (skip c).imp_right .inl
  | sknp x =>
    obtain ⟨c, rfl⟩ := exec_sknp_eq_next h
    exact (skip c).imp_right .inl
  | _ => exact .inl ((framed_of_exec h).pc rfl)

/-- On a fetched state, and with slots that hold pushed addresses, no arithmetic on `pc` wraps, and the sum of Bnnn is the largest value
that `pc` can take. -/
theorem toNat_pc_le_of_exec {i : Instr} {s t : State} (lo : 2 ≤ s.pc.toNat) (hi : s.pc.toNat ≤ Config.memSize)
    (slots : ∀ j : Fin Config.stackDepth, s.stack[j].toNat ≤ Config.memSize) (h : exec i s = .next t) : t.pc.toNat ≤ 0x10FE := by
  rw [Config.memSize_eq] at hi
  obtain e | e | e | ⟨nnn, e⟩ | ⟨nnn, e⟩ | ⟨top, e⟩ := pc_of_exec h <;> rw [e]
  · omega
  · rw [BitVec.toNat_add]
    exact (Nat.mod_le _ _).trans (Nat.add_le_add_right hi 2 |>.trans (by decide))
  · rw [BitVec.toNat_sub_of_le (show (2 : PcVal) ≤ s.pc from lo)]
    omega
  · have := nnn.isLt
    rw [toNat_zextAddr]
    omega
  · have := nnn.isLt
    have := toNat_regVal_lt (s.reg 0)
    rw [toNat_indexedTarget]
    omega
  · exact (slots top).trans (by decide)

/-- A completed instruction leaves every slot as it was, but that a call writes the `pc` it ran with. -/
theorem slot_of_exec {i : Instr} {s t : State} (h : exec i s = .next t) (j : Fin Config.stackDepth) :
    t.stack[j] = s.stack[j] ∨ t.stack[j] = s.pc := by
  cases i with
  | call nnn =>
    obtain ⟨top, rfl⟩ := exec_call_eq_next h
    by_cases e : top.val = j.val
    · exact .inr (by simp [State.called, e])
    · exact .inl (by simp [State.called, e])
  | _ => exact .inl (by rw [(framed_of_exec h).slots rfl])

/-! ## The invariant of a machine that has not faulted -/

/-- Settles O50: after reset nothing is listed in memory, `pc` is 0x200 and every slot is 0. -/
theorem resetMeetsInvariant : Obligations.ResetMeetsInvariant := ⟨Memory.wf_nil, by decide, by decide⟩

/-- Settles O51: the fetch leaves `pc` between 2 and `MEM_SIZE`, which bounds what the instruction puts in `pc` and what a call pushes;
memory and `fault` are as the footprint says. -/
theorem stepKeepsInvariant : Obligations.StepKeepsInvariant := by
  rintro s t ⟨canonical, -, slots⟩ h
  obtain ⟨hf, hp, i, -, he⟩ := step_eq_next h
  have fetched : s.advance.pc.toNat = s.pc.toNat + 2 := toNat_pc_advance hp
  have lo : 2 ≤ s.advance.pc.toNat := by omega
  have hi : s.advance.pc.toNat ≤ Config.memSize := by omega
  have frame := framed_of_exec he
  refine ⟨⟨frame.canonical canonical, toNat_pc_le_of_exec lo hi slots he, fun j => ?_⟩, frame.fault.trans hf⟩
  obtain e | e := slot_of_exec he j <;> rw [e]
  · exact slots j
  · exact hi

/-! ## The invariant of the machine under its host -/

/-- A change of elements that the invariant does not speak of keeps it. -/
theorem State.sysInv_of_same {s t : State} (h : s.sysInv) (mem : t.mem.wf) (pc : t.pc = s.pc) (stack : t.stack = s.stack)
    (fault : t.fault = s.fault) : t.sysInv := by
  refine ⟨mem, fun hf => ?_⟩
  obtain ⟨-, hpc, hstack⟩ := h.2 (fault.symm.trans hf)
  exact ⟨mem, pc ▸ hpc, stack ▸ hstack⟩

/-- A fault leaves nothing but the canonical form to hold. -/
theorem State.sysInv_faulted {s : State} (h : s.mem.wf) (f : Fault) : (s.faulted f).sysInv :=
  ⟨h, fun hf => absurd hf (Option.some_ne_none f)⟩

theorem State.sysInv_hostReset (s : State) : (hostReset s).sysInv := ⟨Memory.wf_nil, fun _ => resetMeetsInvariant⟩

/-- An operation that a faulted machine refuses completes only without a fault. -/
theorem fault_eq_none_of_unlessFaulted {f : State → Outcome} {s t : State} (h : unlessFaulted f s = .next t) :
    s.fault = none ∧ f s = .next t := by
  cases hf : s.fault with
  | none => exact ⟨rfl, (unlessFaulted_of_none hf).symm.trans h⟩
  | some g =>
    rw [unlessFaulted_of_some hf] at h
    cases h

/-- Every host operation that completes keeps the system invariant. -/
theorem sysInv_of_hostState {c : HostCall} {s t : State} (hs : s.sysInv) (h : hostState c s = .next t) : t.sysInv := by
  have query : (afterQuery s).sysInv := by
    cases hf : s.fault with
    | none => rwa [afterQuery_of_fault_eq_none hf]
    | some f => rw [afterQuery_of_fault hf]; exact State.sysInv_of_same hs hs.1 rfl rfl rfl
  cases c with
  | reset =>
    cases h
    exact s.sysInv_hostReset
  | tick =>
    have inv := hs.2 (step_eq_next h).1
    obtain ⟨kept, -⟩ := stepKeepsInvariant s t inv h
    exact ⟨kept.1, fun _ => kept⟩
  | getDisplay | shouldPlaySound =>
    cases h
    exact query
  | tickTimers =>
    rw [hostState] at h
    obtain ⟨-, eq⟩ := fault_eq_none_of_unlessFaulted h
    cases eq
    exact State.sysInv_of_same hs hs.1 rfl rfl rfl
  | keypress index p =>
    obtain ⟨hf, -⟩ := fault_eq_none_of_unlessFaulted h
    by_cases hk : index < Config.numKeys
    · rw [hostState_keypress_of_key hf ⟨index, hk⟩ p] at h
      cases h
      exact State.sysInv_of_same hs hs.1 rfl rfl rfl
    · rw [hostState_keypress_of_ge hf (Nat.le_of_not_lt hk)] at h
      cases h
  | load data =>
    obtain ⟨hf, -⟩ := fault_eq_none_of_unlessFaulted h
    by_cases fits : data.length ≤ Config.maxImage
    · rw [hostState_load_of_le hf fits] at h
      cases h
      exact State.sysInv_of_same hs (Memory.wf_writeAll data hs.1 (load_fits fits)) rfl rfl rfl
    · rw [hostState_load_of_gt hf (Nat.lt_of_not_le fits)] at h
      cases h

/-- Settles O52: an operation completes, or faults and leaves any state with a canonical memory; runs by induction from reset. -/
theorem reachableStatesMeetSystemInvariant : Obligations.ReachableStatesMeetSystemInvariant := by
  have kept (c : HostCall) (s t : State) (hs : s.sysInv) (h : systemStep c s t) : t.sysInv := by
    obtain hnext | ⟨f, any, -, canonical, rfl⟩ := h
    · exact sysInv_of_hostState hs hnext
    · exact State.sysInv_faulted canonical f
  refine ⟨kept, fun s h => ?_⟩
  induction h with
  | new => exact ⟨Memory.wf_nil, fun _ => resetMeetsInvariant⟩
  | call c s t _ hst ih => exact kept c s t ih hst

end Sys2Proof.Machine
